-- ==== Sys2Proof/Word.lean ====
section
/-! DEFINITION. The widths of the machine's values (00_scope.md R5, R6; 30_encoding.md R61): every one unsigned. -/

namespace Sys2Proof

/-- A memory byte, a general register, a timer (R10, R18, R19, R26). -/
abbrev Byte := BitVec 8

/-- An instruction word (R64). -/
abbrev Word := BitVec 16

/-- The value of `PC`, `I` or a stack entry (R14, R15, R23). -/
abbrev Addr := BitVec 16

/-- A framebuffer row, 64 pixels (R24). -/
abbrev Row := BitVec 64

/-- A register index, the field `x` or `y` of a word (R61). -/
abbrev Reg := BitVec 4

/-- The field `n`: a row count or a selector (R61). -/
abbrev Imm4 := BitVec 4

/-- The field `nn`: an 8-bit immediate, mask or selector (R61). -/
abbrev Imm8 := BitVec 8

/-- The field `nnn`: a 12-bit address (R61). -/
abbrev Imm12 := BitVec 12

end Sys2Proof
end

