-- ==== Sys2Proof/Config.lean ====
section
/-! DEFINITION. The free values: what the environment answers and nothing constrains (45_input_random_timers.md
R170, R172). Each is a constant with no body, so no proof can know a value of it. -/

namespace Sys2Proof

/-- The byte the Input Source supplies as its `k`-th answer, when the `k`-th answer is asked by `draw_byte()`
(R170): "The core assumes nothing of the value". DESIGN CHOICE of form, safe (log 1). -/
opaque Config.drawByte (k : Nat) : Byte

/-- Whether the key of index `key` is down at the Input Source's `k`-th answer, when that answer is asked by
`key_down(key)` (R172), for the indices 16 to 255 too (D17). DESIGN CHOICE of form, safe (log 2). -/
opaque Config.keyDown (k : Nat) (key : Byte) : Bool

end Sys2Proof
end

