-- ==== Sys2Proof/Syntax.lean ====
section
/-! DEFINITION. The instructions: one constructor per row of spec/opcode_table.json, in the table's order
(30_encoding.md R66 for the 34 instructions, R69 for the six illegal spaces). -/

namespace Sys2Proof

/-- The instruction a word stands for. A constructor keeps every field its pattern leaves free, so that no bit
of a word is lost. The last six are the table's rows of kind "illegal": words that select no instruction and
raise an error kind when they are executed (R69). -/
inductive Instr where
  /-- 00E0 `CLS` (R160). -/
  | cls
  /-- 00EE `RET` (R100). -/
  | ret
  /-- 1nnn `JP nnn` (R101). -/
  | jp (nnn : Imm12)
  /-- 2nnn `CALL nnn` (R102). -/
  | call (nnn : Imm12)
  /-- 3xnn `SE Vx, nn` (R103). -/
  | seImm (x : Reg) (nn : Imm8)
  /-- 4xnn `SNE Vx, nn` (R104). -/
  | sneImm (x : Reg) (nn : Imm8)
  /-- 5xy0 `SE Vx, Vy` (R105). -/
  | seReg (x y : Reg)
  /-- 6xnn `LD Vx, nn` (R120). -/
  | ldImm (x : Reg) (nn : Imm8)
  /-- 7xnn `ADD Vx, nn` (R121). -/
  | addImm (x : Reg) (nn : Imm8)
  /-- 8xy0 `LD Vx, Vy` (R122). -/
  | ldReg (x y : Reg)
  /-- 8xy1 `OR Vx, Vy` (R123). -/
  | orReg (x y : Reg)
  /-- 8xy2 `AND Vx, Vy` (R124). -/
  | andReg (x y : Reg)
  /-- 8xy3 `XOR Vx, Vy` (R125). -/
  | xorReg (x y : Reg)
  /-- 8xy4 `ADD Vx, Vy` (R126). -/
  | addReg (x y : Reg)
  /-- 8xy5 `SUB Vx, Vy` (R127). -/
  | sub (x y : Reg)
  /-- 8xy6 `SHR Vx` (R128); `y` is free and ignored (R71). -/
  | shr (x y : Reg)
  /-- 8xy7 `SUBN Vx, Vy` (R129). -/
  | subn (x y : Reg)
  /-- 8xyE `SHL Vx` (R130); `y` is free and ignored (R71). -/
  | shl (x y : Reg)
  /-- 9xy0 `SNE Vx, Vy` (R106). -/
  | sneReg (x y : Reg)
  /-- Annn `LD I, nnn` (R140). -/
  | ldI (nnn : Imm12)
  /-- Bnnn `JP V0, nnn` (R107). -/
  | jpV0 (nnn : Imm12)
  /-- Cxnn `RND Vx, nn` (R171). -/
  | rnd (x : Reg) (nn : Imm8)
  /-- Dxyn `DRW Vx, Vy, n` (R161). -/
  | drw (x y : Reg) (n : Imm4)
  /-- Ex9E `SKP Vx` (R173). -/
  | skp (x : Reg)
  /-- ExA1 `SKNP Vx` (R174). -/
  | sknp (x : Reg)
  /-- Fx06 `LD Vx, DT` (R176). -/
  | ldVxDT (x : Reg)
  /-- Fx0A `LD Vx, K` (R175). -/
  | ldVxK (x : Reg)
  /-- Fx15 `LD DT, Vx` (R177). -/
  | ldDTVx (x : Reg)
  /-- Fx18 `LD ST, Vx` (R179). -/
  | ldSTVx (x : Reg)
  /-- Fx1E `ADD I, Vx` (R141). -/
  | addI (x : Reg)
  /-- Fx29 `LD F, Vx` (R142). -/
  | ldF (x : Reg)
  /-- Fx33 `LD B, Vx` (R143). -/
  | ldB (x : Reg)
  /-- Fx55 `LD [I], Vx` (R144). -/
  | ldMemVx (x : Reg)
  /-- Fx65 `LD Vx, [I]` (R145). -/
  | ldVxMem (x : Reg)
  /-- 0nnn with `nnn` other than 0x0E0 and 0x0EE: `UnsupportedInstruction` (R69). -/
  | illegal0 (nnn : Imm12)
  /-- 5xyn with `n` not 0: `InvalidEncoding` (R69). -/
  | illegal5 (x y : Reg) (n : Imm4)
  /-- 8xyn with `n` 8 to 0xD or 0xF: `InvalidEncoding` (R69, R132). -/
  | illegal8 (x y : Reg) (n : Imm4)
  /-- 9xyn with `n` not 0: `InvalidEncoding` (R69). -/
  | illegal9 (x y : Reg) (n : Imm4)
  /-- Exnn with `nn` other than 0x9E and 0xA1: `UnsupportedInstruction` (R69). -/
  | illegalE (x : Reg) (nn : Imm8)
  /-- Fxnn with `nn` outside the nine sub-codes: `UnsupportedInstruction` (R69). -/
  | illegalF (x : Reg) (nn : Imm8)
  deriving DecidableEq, Repr

end Sys2Proof
end

