-- ==== Sys2Proof/WellFormed.lean ====
section
/-! DEFINITION. Which terms of `Instr` stand for a word. The fields' widths are in their types; what is left to
check is that an illegal row's selector is none that an instruction row claims (30_encoding.md R69, R74). -/

namespace Sys2Proof

/-- The nine sub-codes `nn` of family 0xF that select an instruction (R67). -/
def familyFCodes : List Imm8 :=
  [0x06#8, 0x0A#8, 0x15#8, 0x18#8, 0x1E#8, 0x29#8, 0x33#8, 0x55#8, 0x65#8]

/-- The seven selectors `n` of family 0x8 that select no instruction (R69). -/
def family8Holes : List Imm4 :=
  [0x8#4, 0x9#4, 0xA#4, 0xB#4, 0xC#4, 0xD#4, 0xF#4]

/-- `i` stands for some word: an illegal row holds only words that no instruction row matches (R74). -/
def Instr.wellFormed (i : Instr) : Bool :=
  match i with
  | .illegal0 nnn => nnn != 0x0E0#12 && nnn != 0x0EE#12
  | .illegal5 _ _ n => n != 0x0#4
  | .illegal8 _ _ n => family8Holes.contains n
  | .illegal9 _ _ n => n != 0x0#4
  | .illegalE _ nn => nn != 0x9E#8 && nn != 0xA1#8
  | .illegalF _ nn => !familyFCodes.contains nn
  | .cls | .ret | .jp _ | .call _ | .seImm _ _ | .sneImm _ _ | .seReg _ _ | .ldImm _ _ | .addImm _ _
  | .ldReg _ _ | .orReg _ _ | .andReg _ _ | .xorReg _ _ | .addReg _ _ | .sub _ _ | .shr _ _ | .subn _ _
  | .shl _ _ | .sneReg _ _ | .ldI _ | .jpV0 _ | .rnd _ _ | .drw _ _ _ | .skp _ | .sknp _ | .ldVxDT _
  | .ldVxK _ | .ldDTVx _ | .ldSTVx _ | .addI _ | .ldF _ | .ldB _ | .ldMemVx _ | .ldVxMem _ => true

end Sys2Proof
end

