-- ==== Sys2Proof/Decode.lean ====
section
/-! DEFINITION. The instruction decoder (30_encoding.md R60 to R63), the dispatcher's `classify` (R67), bytes to
instructions in the big-endian order of 20_memory.md R46, and the encoder written from the patterns of R66. -/

namespace Sys2Proof

/-! ## The six fields (R61) -/

/-- Bits 15 to 12. -/
def opcodeField (w : Word) : BitVec 4 := w.extractLsb' 12 4

/-- Bits 11 to 8. -/
def xField (w : Word) : Reg := w.extractLsb' 8 4

/-- Bits 7 to 4. -/
def yField (w : Word) : Reg := w.extractLsb' 4 4

/-- Bits 3 to 0. -/
def nField (w : Word) : Imm4 := w.extractLsb' 0 4

/-- Bits 7 to 0. -/
def nnField (w : Word) : Imm8 := w.extractLsb' 0 8

/-- Bits 11 to 0. -/
def nnnField (w : Word) : Imm12 := w.extractLsb' 0 12

/-! ## classify (R67) -/

/-- Family 0x0, selected on the whole `nnn`. -/
def classify0 (w : Word) : Instr :=
  if nnnField w = 0x0E0#12 then .cls
  else if nnnField w = 0x0EE#12 then .ret
  else .illegal0 (nnnField w)

/-- Family 0x8, selected on `n`. The selector values are the spec's (R68 and D7, log 8). -/
def classify8 (w : Word) : Instr :=
  match (nField w).toNat with
  | 0x0 => .ldReg (xField w) (yField w)
  | 0x1 => .orReg (xField w) (yField w)
  | 0x2 => .andReg (xField w) (yField w)
  | 0x3 => .xorReg (xField w) (yField w)
  | 0x4 => .addReg (xField w) (yField w)
  | 0x5 => .sub (xField w) (yField w)
  | 0x6 => .shr (xField w) (yField w)
  | 0x7 => .subn (xField w) (yField w)
  | 0xE => .shl (xField w) (yField w)
  | _ => .illegal8 (xField w) (yField w) (nField w)

/-- Family 0xE, selected on `nn`. The selector values are the spec's (R68 and D8, log 8). -/
def classifyE (w : Word) : Instr :=
  if nnField w = 0x9E#8 then .skp (xField w)
  else if nnField w = 0xA1#8 then .sknp (xField w)
  else .illegalE (xField w) (nnField w)

/-- Family 0xF, selected on `nn`. 0x06 reads the delay timer, as the source prints it (D9, log 9). -/
def classifyF (w : Word) : Instr :=
  match (nnField w).toNat with
  | 0x06 => .ldVxDT (xField w)
  | 0x0A => .ldVxK (xField w)
  | 0x15 => .ldDTVx (xField w)
  | 0x18 => .ldSTVx (xField w)
  | 0x1E => .addI (xField w)
  | 0x29 => .ldF (xField w)
  | 0x33 => .ldB (xField w)
  | 0x55 => .ldMemVx (xField w)
  | 0x65 => .ldVxMem (xField w)
  | _ => .illegalF (xField w) (nnField w)

/-- The instruction of a word: total over all 65536 words (R63, R67). The last arm is family 0xF, the one value
of four bits left. -/
def decodeWord (w : Word) : Instr :=
  match (opcodeField w).toNat with
  | 0x0 => classify0 w
  | 0x1 => .jp (nnnField w)
  | 0x2 => .call (nnnField w)
  | 0x3 => .seImm (xField w) (nnField w)
  | 0x4 => .sneImm (xField w) (nnField w)
  | 0x5 => if nField w = 0x0#4 then .seReg (xField w) (yField w) else .illegal5 (xField w) (yField w) (nField w)
  | 0x6 => .ldImm (xField w) (nnField w)
  | 0x7 => .addImm (xField w) (nnField w)
  | 0x8 => classify8 w
  | 0x9 => if nField w = 0x0#4 then .sneReg (xField w) (yField w) else .illegal9 (xField w) (yField w) (nField w)
  | 0xA => .ldI (nnnField w)
  | 0xB => .jpV0 (nnnField w)
  | 0xC => .rnd (xField w) (nnField w)
  | 0xD => .drw (xField w) (yField w) (nField w)
  | 0xE => classifyE w
  | _ => classifyF w

/-! ## Bytes (20_memory.md R46) -/

/-- Why a list of bytes holds no instruction. -/
inductive DecodeError where
  /-- Fewer than the two bytes of an instruction word (R64). Safe: nothing is decoded. -/
  | truncated
  deriving DecidableEq, Repr

/-- The word whose byte at the lower address is `hi` (R46). -/
def wordOfBytes (hi lo : Byte) : Word := hi ++ lo

/-- The bytes of a word in increasing address order (R46). -/
def bytesOfWord (w : Word) : List Byte := [w.extractLsb' 8 8, w.extractLsb' 0 8]

/-- The first instruction of a list of bytes and the bytes after it. -/
def decode (bytes : List Byte) : Except DecodeError (Instr × List Byte) :=
  match bytes with
  | hi :: lo :: rest => .ok (decodeWord (wordOfBytes hi lo), rest)
  | _ => .error .truncated

/-- The instruction of an opcode-table word `w` whose row has `nbits` bits: the word's bits above `nbits` are 0,
it is laid out high byte first and given to `decode`. -/
def decodeTableWord (nbits w : Nat) : Option Instr :=
  match decode (bytesOfWord (BitVec.ofNat 16 (w % 2 ^ nbits))) with
  | .ok (i, _) => some i
  | .error _ => none

/-! ## The encoder (R66, R64) -/

/-- The word of an instruction, field by field from bit 15 down, as the patterns of R66 are written. -/
def encodeWord (i : Instr) : Word :=
  match i with
  | .cls => 0x00E0#16
  | .ret => 0x00EE#16
  | .jp nnn => 0x1#4 ++ nnn
  | .call nnn => 0x2#4 ++ nnn
  | .seImm x nn => 0x3#4 ++ x ++ nn
  | .sneImm x nn => 0x4#4 ++ x ++ nn
  | .seReg x y => 0x5#4 ++ x ++ y ++ 0x0#4
  | .ldImm x nn => 0x6#4 ++ x ++ nn
  | .addImm x nn => 0x7#4 ++ x ++ nn
  | .ldReg x y => 0x8#4 ++ x ++ y ++ 0x0#4
  | .orReg x y => 0x8#4 ++ x ++ y ++ 0x1#4
  | .andReg x y => 0x8#4 ++ x ++ y ++ 0x2#4
  | .xorReg x y => 0x8#4 ++ x ++ y ++ 0x3#4
  | .addReg x y => 0x8#4 ++ x ++ y ++ 0x4#4
  | .sub x y => 0x8#4 ++ x ++ y ++ 0x5#4
  | .shr x y => 0x8#4 ++ x ++ y ++ 0x6#4
  | .subn x y => 0x8#4 ++ x ++ y ++ 0x7#4
  | .shl x y => 0x8#4 ++ x ++ y ++ 0xE#4
  | .sneReg x y => 0x9#4 ++ x ++ y ++ 0x0#4
  | .ldI nnn => 0xA#4 ++ nnn
  | .jpV0 nnn => 0xB#4 ++ nnn
  | .rnd x nn => 0xC#4 ++ x ++ nn
  | .drw x y n => 0xD#4 ++ x ++ y ++ n
  | .skp x => 0xE#4 ++ x ++ 0x9E#8
  | .sknp x => 0xE#4 ++ x ++ 0xA1#8
  | .ldVxDT x => 0xF#4 ++ x ++ 0x06#8
  | .ldVxK x => 0xF#4 ++ x ++ 0x0A#8
  | .ldDTVx x => 0xF#4 ++ x ++ 0x15#8
  | .ldSTVx x => 0xF#4 ++ x ++ 0x18#8
  | .addI x => 0xF#4 ++ x ++ 0x1E#8
  | .ldF x => 0xF#4 ++ x ++ 0x29#8
  | .ldB x => 0xF#4 ++ x ++ 0x33#8
  | .ldMemVx x => 0xF#4 ++ x ++ 0x55#8
  | .ldVxMem x => 0xF#4 ++ x ++ 0x65#8
  | .illegal0 nnn => 0x0#4 ++ nnn
  | .illegal5 x y n => 0x5#4 ++ x ++ y ++ n
  | .illegal8 x y n => 0x8#4 ++ x ++ y ++ n
  | .illegal9 x y n => 0x9#4 ++ x ++ y ++ n
  | .illegalE x nn => 0xE#4 ++ x ++ nn
  | .illegalF x nn => 0xF#4 ++ x ++ nn

/-- The two bytes of an instruction in memory, high byte first (R72). -/
def encode (i : Instr) : List Byte := bytesOfWord (encodeWord i)

end Sys2Proof
end

