-- ==== Sys2Proof/Machine/Parameters.lean ====
section
/-! DEFINITION. The parameters of the core with the value the spec's rules use (00_scope.md R5). They stand here, not
in Config.lean, so that a test can lead to a repair of them. -/

namespace Sys2Proof.Machine

/-- `MEM_SIZE`: addresses 0x000 to 0xFFF exist (R26). -/
def memSize : Nat := 0x1000

/-- `MEM_LAST`: the highest byte a data access may touch (R43, the spec's decision D1, log 6). -/
def memLast : Nat := 0xFFE

/-- The literal of the fetch check (R44), which does not move with `memLast`. -/
def fetchLimit : Nat := 0xFFF

/-- `PROG_BASE`: where the image is loaded and where execution starts (R232, R31). -/
def progBase : Nat := 0x200

/-- `STACK_DEPTH` (R23). -/
def stackDepth : Nat := 16

/-- `FB_ROWS` (R24). -/
def fbRows : Nat := 32

/-- `FONT`, the 80 bytes at 0x000 to 0x04F (R231). The sprite of digit 0 is the source's, the other fifteen are the
spec's default of the parameter (D22, log 7). -/
def font : List Byte :=
  [0xF0#8, 0x90#8, 0x90#8, 0x90#8, 0xF0#8] ++  -- 0
  [0x20#8, 0x60#8, 0x20#8, 0x20#8, 0x70#8] ++  -- 1
  [0xF0#8, 0x10#8, 0xF0#8, 0x80#8, 0xF0#8] ++  -- 2
  [0xF0#8, 0x10#8, 0xF0#8, 0x10#8, 0xF0#8] ++  -- 3
  [0x90#8, 0x90#8, 0xF0#8, 0x10#8, 0x10#8] ++  -- 4
  [0xF0#8, 0x80#8, 0xF0#8, 0x10#8, 0xF0#8] ++  -- 5
  [0xF0#8, 0x80#8, 0xF0#8, 0x90#8, 0xF0#8] ++  -- 6
  [0xF0#8, 0x10#8, 0x20#8, 0x40#8, 0x40#8] ++  -- 7
  [0xF0#8, 0x90#8, 0xF0#8, 0x90#8, 0xF0#8] ++  -- 8
  [0xF0#8, 0x90#8, 0xF0#8, 0x10#8, 0xF0#8] ++  -- 9
  [0xF0#8, 0x90#8, 0xF0#8, 0x90#8, 0x90#8] ++  -- A
  [0xE0#8, 0x90#8, 0xE0#8, 0x90#8, 0xE0#8] ++  -- B
  [0xF0#8, 0x80#8, 0x80#8, 0x80#8, 0xF0#8] ++  -- C
  [0xE0#8, 0x90#8, 0x90#8, 0x90#8, 0xE0#8] ++  -- D
  [0xF0#8, 0x80#8, 0xF0#8, 0x80#8, 0xF0#8] ++  -- E
  [0xF0#8, 0x80#8, 0xF0#8, 0x80#8, 0x80#8]     -- F

end Sys2Proof.Machine
end

