-- ==== Sys2Proof/Machine/State.lean ====
section
/-! DEFINITION. The architectural state (10_state.md) as plain data, with its value after reset (R31), and the
reasons a step can stop. -/

namespace Sys2Proof.Machine

/-- The memory: the bytes that differ from their reset content, as (address, byte) pairs with strictly rising
addresses (20_memory.md R40, R55). `Memory.wf` in Machine/Ops.lean states the form. -/
abbrev Memory := List Host.Cell

/-- The state of the dispatcher (R21): `run` between steps, `waitKey x` suspended inside Fx0A with the register
index latched (R27), `halted` after an error. -/
inductive Phase where
  | run
  | waitKey (x : Reg)
  | halted
  deriving DecidableEq, Repr

/-- The six error kinds (60_exceptions.md R200), in the source's order. -/
inductive ErrorKind where
  | addressFault
  | stackOverflow
  | stackUnderflow
  | invalidEncoding
  | invalidDigit
  | unsupportedInstruction
  deriving DecidableEq, Repr

/-- A display event (R29): the screen was cleared, or the listed rows (index and new 64-bit value, in increasing
row order) were redrawn. -/
inductive DisplayEvent where
  | clear
  | regionUpdated (rows : List (Fin 32 × Row))
  deriving DecidableEq, Repr

/-- A program image: a byte string that fits from 0x200 to 0xFFF (70_reset_and_hazards.md R232, D31). -/
structure Image where
  bytes : List Byte
  fits : bytes.length ≤ 0xE00
  deriving DecidableEq, Repr

/-- One move the environment offers (40_dispatcher.md R95): an instruction step (R97), a `Tick` (R178), a key press
with its index 0 to 15 (R175), or a reset with the image the host has chosen (R230, R235). -/
inductive Move where
  | instruction
  | tick
  | keyPress (key : BitVec 4)
  | reset (image : Image)
  deriving DecidableEq, Repr

/-- The machine's state. The first twelve fields are the spec's; `schedule` and `answers` are the model's own
record of the environment (log 3, log 1). -/
structure State where
  /-- The general registers `v[0]` to `v[15]`; `v[15]` is also the flag (R10, R12). -/
  v : Vector Byte 16
  /-- The address register `I` (R14). -/
  i : Addr
  /-- The program counter (R15). -/
  pc : Addr
  /-- The delay timer (R18). -/
  dt : Byte
  /-- The sound timer (R19). -/
  st : Byte
  /-- The stack pointer, the number of return addresses held: 0 to 16 (R20). -/
  sp : BitVec 5
  /-- The return stack, outside the address space (R23). -/
  stack : Vector Addr 16
  /-- The framebuffer, outside the address space (R24). -/
  fb : Vector Row 32
  /-- The dispatcher's state (R21). -/
  phase : Phase
  /-- The error status (R22): `none` is the code 0, `ErrorKind.code` gives the codes 1 to 6. -/
  err : Option ErrorKind
  /-- The 4096-byte memory (R26). -/
  mem : Memory
  /-- The display event stream, oldest first (R29). -/
  events : List DisplayEvent
  /-- MODEL'S OWN: the moves the environment will offer, oldest first; when none is left it offers instruction
  steps only (log 3). -/
  schedule : List Move
  /-- MODEL'S OWN: how many answers the Input Source has given, the argument of the free values (log 1, log 2). -/
  answers : Nat
  deriving DecidableEq, Repr

/-- Why the model stops where the spec describes no error of the machine. The six error kinds of R200 are no such
stop: they are next states with `phase = .halted`. -/
inductive Fault where
  /-- Raised by RET alone, when `SP` is above 16, a value that R20 rules out and no run reaches: `stack[SP - 1]`
  does not exist. Safe: the model stops where the spec gives no behaviour (log 16). -/
  | stackEntryAbsent
  deriving DecidableEq, Repr

/-- Why the model gives an instruction no meaning. -/
inductive Refusal where
  /-- Raised by an arm of `exec` whose instruction has no meaning yet. Safe: nothing can be proved of a run beyond
  it. No arm raises it: every row of the opcode table has its meaning. -/
  | notModelled (mnemonic : String)
  deriving DecidableEq, Repr

/-- The machine when reset is released, with the empty image (R31, R230): the spec states every value; `PC` and
`SP` come from the source, the zeros are the spec's decision D21 (log 5). Nothing is listed in memory, so every
byte holds its reset content. The last two fields are the model's own (DESIGN CHOICE, log 3 and log 1). -/
def State.reset : State where
  v := Vector.replicate 16 0x00#8
  i := 0x0000#16
  pc := 0x0200#16
  dt := 0x00#8
  st := 0x00#8
  sp := 0#5
  stack := Vector.replicate 16 0x0000#16
  fb := Vector.replicate 32 0#64
  phase := .run
  err := none
  mem := []
  events := []
  schedule := []
  answers := 0

end Sys2Proof.Machine
end

