-- ==== Sys2Proof/Machine/Ops.lean ====
section
/-! DEFINITION. The operations over memory and state that every instruction and transition is made of: memory bytes and
the bound check, register and stack access, raising an error and the reset that leaves it, fetch, and the
environment's moves. -/

namespace Sys2Proof.Machine

/-- What a step or an instruction answers. -/
abbrev Answer := Host.Outcome State Fault Refusal

/-! ## Memory (20_memory.md) -/

/-- The content at reset of an address that no image byte was loaded to: the font table from 0x000 (R231), 0x00
above it (R233). -/
def Memory.unlisted (a : Nat) : Byte := font.getD a 0x00#8

/-- The byte at `a`: the most recent one written, or the reset content if none was (R50, R55). -/
def Memory.read : Memory → Nat → Byte
  | [], a => Memory.unlisted a
  | (b, value) :: rest, a => if b = a then value else Memory.read rest a

/-- The memory with nothing listed at `a`. -/
def Memory.without (m : Memory) (a : Nat) : Memory := m.filter fun cell => cell.1 != a

/-- List `value` at `a`, before the first higher address. -/
def Memory.insert : Memory → Nat → Byte → Memory
  | [], a, value => [(a, value)]
  | cell :: rest, a, value =>
    if a < cell.1 then (a, value) :: cell :: rest else cell :: Memory.insert rest a value

/-- Store one byte; a byte equal to the reset content leaves no entry. -/
def Memory.write (m : Memory) (a : Nat) (value : Byte) : Memory :=
  if value = Memory.unlisted a then m.without a else Memory.insert (m.without a) a value

/-- Store a string of bytes in increasing address order. -/
def Memory.writeBytes (m : Memory) (a : Nat) : List Byte → Memory
  | [] => m
  | value :: rest => Memory.writeBytes (m.write a value) (a + 1) rest

/-- The canonical form: rising addresses of the address space, none listed with its reset content. -/
abbrev Memory.wf (m : Memory) : Prop :=
  m.Pairwise (fun c d => c.1 < d.1) ∧ ∀ cell ∈ m, cell.2 ≠ Memory.unlisted cell.1 ∧ cell.1 < memSize

/-! ## Registers, stack, framebuffer -/

/-- The register that is also the flag (R12). -/
def VF : Reg := 0xF#4

/-- Read general register `k` (R10). -/
def State.reg (s : State) (k : Reg) : Byte := s.v[k.toNat]'k.isLt

/-- Write general register `k` (R10): no register is hardwired. -/
def State.setReg (s : State) (k : Reg) (b : Byte) : State := { s with v := s.v.set k.toNat b k.isLt }

/-- `I <- a` (R14). -/
def State.setI (s : State) (a : Addr) : State := { s with i := a }

/-- `pc <- a` (R15). -/
def State.setPc (s : State) (a : Addr) : State := { s with pc := a }

/-- `DT <- b` (R18). -/
def State.setDt (s : State) (b : Byte) : State := { s with dt := b }

/-- `ST <- b` (R19). -/
def State.setSt (s : State) (b : Byte) : State := { s with st := b }

/-- `SP <- n` (R20). -/
def State.setSp (s : State) (n : BitVec 5) : State := { s with sp := n }

/-- `stack[k] <- a` for `k` in 0 to 15; there is no other entry (R23). -/
def State.setEntry (s : State) (k : Nat) (a : Addr) : State := { s with stack := s.stack.setIfInBounds k a }

/-- The whole framebuffer replaced (R24). -/
def State.setFb (s : State) (rows : Vector Row 32) : State := { s with fb := rows }

/-- The whole memory replaced (R26). -/
def State.setMem (s : State) (m : Memory) : State := { s with mem := m }

/-- `PHASE <- p` (R21). -/
def State.setPhase (s : State) (p : Phase) : State := { s with phase := p }

/-- `emit e`: append a display event to the stream (R7, R29). -/
def State.emit (s : State) (e : DisplayEvent) : State := { s with events := s.events ++ [e] }

/-- The moves still to come. -/
def State.setSchedule (s : State) (moves : List Move) : State := { s with schedule := moves }

/-- One answer of the Input Source was used (R170, R172). -/
def State.countAnswer (s : State) : State := { s with answers := s.answers + 1 }

/-! ## Errors and reset (60_exceptions.md, 70_reset_and_hazards.md) -/

/-- The code an error kind has in `ERR` (R200, D23). -/
def ErrorKind.code : ErrorKind → Nat
  | .addressFault => 1
  | .stackOverflow => 2
  | .stackUnderflow => 3
  | .invalidEncoding => 4
  | .invalidDigit => 5
  | .unsupportedInstruction => 6

/-- The value of `ERR` (R22): 0 when there is no error. -/
def State.errCode (s : State) : Nat :=
  match s.err with
  | none => 0
  | some kind => kind.code

/-- `raise K` (R201): `ERR <- code(K)`, `PHASE <- HALTED`, everything else as it is. There is no trap entry, no saved
register and no change of `PC` (R202, R203). -/
def State.raise (s : State) (kind : ErrorKind) : State := { s with phase := .halted, err := some kind }

/-- The one way out of `HALTED` (R205), accepted in every `PHASE` (R230): the reset state with the image in memory
from 0x200 (R31, R231 to R233). What is left of the environment's record goes on (log 3). -/
def State.restart (s : State) (image : Image) : State :=
  { State.reset with
    mem := Memory.writeBytes [] progBase image.bytes
    schedule := s.schedule
    answers := s.answers }

/-- An access to the `n` bytes from `a` on, `n` at least 1 (R43): `AddressFault` when the last of them, formed
without wrap-around (R54), lies above `memLast`, and nothing else then (R53); otherwise `go`. -/
def withAccess (s : State) (a n : Nat) (go : Answer) : Answer :=
  if a + n - 1 > memLast then .next (s.raise .addressFault) else go

/-! ## Fetch (40_dispatcher.md R91) -/

/-- The fetch check, without wrap-around (R44). -/
def State.canFetch (s : State) : Bool := s.pc.toNat + 2 ≤ fetchLimit

/-- The word at `PC`, high byte first (R46). -/
def State.fetchWord (s : State) : Word :=
  wordOfBytes (s.mem.read s.pc.toNat) (s.mem.read (s.pc.toNat + 1))

/-- `pc <- (a + 2) mod 65536`, before the execute phase (R91, R8). -/
def State.advance (s : State) : State := s.setPc (s.pc + 2#16)

/-- One instruction step (R98), `run` being what the instruction's rule does to the state with `PC` advanced. -/
def instructionStep (run : Instr → State → Answer) (s : State) : Answer :=
  if s.canFetch then run (decodeWord s.fetchWord) s.advance else .next (s.raise .addressFault)

/-! ## The transitions of the whole core (R95) -/

/-- An instruction step is offered: taken in `RUN`; the core waits in `WAIT_KEY` (log 4) and stays in `HALTED`
(R206). -/
def offerInstruction (run : Instr → State → Answer) (s : State) : Answer :=
  match s.phase with
  | .run => instructionStep run s
  | .waitKey _ => .next s
  | .halted => .next s

/-- A timer one `Tick` later: it saturates at 0 (R178). -/
def tickDown (t : Byte) : Byte := if t = 0#8 then t else t - 1#8

/-- `Tick` (R178): no effect in `HALTED` (R206). -/
def State.tick (s : State) : State :=
  match s.phase with
  | .halted => s
  | .run | .waitKey _ => (s.setDt (tickDown s.dt)).setSt (tickDown s.st)

/-- A key press: completes a waiting Fx0A (R175), otherwise lost (R27). -/
def State.pressKey (s : State) (key : BitVec 4) : State :=
  match s.phase with
  | .waitKey x => (s.setReg x (key.zeroExtend 8)).setPhase .run
  | .run | .halted => s

/-- One transition: the next move of the schedule, an instruction step when none is left (R95, log 3). -/
def transition (run : Instr → State → Answer) (s : State) : Answer :=
  match s.schedule with
  | [] => offerInstruction run s
  | .instruction :: rest => offerInstruction run (s.setSchedule rest)
  | .tick :: rest => .next (s.setSchedule rest).tick
  | .keyPress key :: rest => .next ((s.setSchedule rest).pressKey key)
  | .reset image :: rest => .next ((s.setSchedule rest).restart image)

/-! ## Placing an instruction (for the host) -/

/-- Whether the next move is an instruction step. -/
def offersInstruction : List Move → Bool
  | [] => true
  | .instruction :: _ => true
  | .tick :: _ => false
  | .keyPress _ :: _ => false
  | .reset _ :: _ => false

/-- `s` with the two bytes of `w` where the next step fetches, high byte first (R46). What the fetch needs beside is
put right only where it is not so already: a `PC` the fetch check accepts, `PHASE` `RUN` with no error, and an
instruction step as the next move (log 15). From `State.reset` only memory changes. -/
def State.placeWord (s : State) (w : Word) : State :=
  let pc := if s.canFetch then s.pc else State.reset.pc
  { s with
    pc := pc
    phase := .run
    err := none
    schedule := if offersInstruction s.schedule then s.schedule else .instruction :: s.schedule
    mem := Memory.writeBytes s.mem pc.toNat (bytesOfWord w) }

end Sys2Proof.Machine
end

