-- ==== Sys2Proof/Machine/Operands.lean ====
section
/-! DEFINITION. The operand forms and the addresses and targets made of them (30_encoding.md R65): registers are read
and written by `State.reg` and `State.setReg` of Machine/Ops.lean. -/

namespace Sys2Proof.Machine

/-- An `nnn` operand as an address: zero-extended to 16 bits (R65). -/
def addrOf (nnn : Imm12) : Addr := nnn.zeroExtend 16

/-- A register's byte as a 16-bit addend (R107, R141). -/
def wide (b : Byte) : Addr := b.zeroExtend 16

/-- The machine's one addressing mode: `I` plus a constant offset, formed without wrap (43_index_memory.md, R54). -/
def State.baseOffset (s : State) (k : Nat) : Nat := s.i.toNat + k

/-- The register of index `k` in a range `v[0..=x]` (R65), `k` in 0 to 15. -/
def regOfIndex (k : Nat) : Reg := BitVec.ofNat 4 k

/-- `if c then pc <- PC + 2` (R8, R103). -/
def State.skipIf (s : State) (c : Bool) : State := s.setPc (if c then s.pc + 2#16 else s.pc)

/-- Digit sprite `d` of the font table starts at `5 * d` (R41, R142). -/
def digitAddr (d : Byte) : Addr := BitVec.ofNat 16 (d.toNat * 5)

/-- The decimal digits of a byte, hundreds first (R143). -/
def hundreds (b : Byte) : Byte := BitVec.ofNat 8 (b.toNat / 100)

/-- The tens digit (R143). -/
def tens (b : Byte) : Byte := BitVec.ofNat 8 (b.toNat / 10 % 10)

/-- The ones digit (R143). -/
def ones (b : Byte) : Byte := BitVec.ofNat 8 (b.toNat % 10)

/-- Where a sprite row lands in a framebuffer row (R162): shifted left by the whole horizontal operand, bits beyond
bit 63 lost, all of them for an operand of 64 or more (D15; log 12). -/
def place (sprite : Byte) (h : Byte) : Row :=
  if h.toNat ≤ 63 then sprite.zeroExtend 64 <<< h.toNat else 0#64

/-- How many sprite rows DRW draws (R161): rows at 32 and beyond are skipped. -/
def rowCount (n : Imm4) (t : Byte) : Nat := min n.toNat (fbRows - t.toNat)

end Sys2Proof.Machine
end

