-- ==== Sys2Proof/Machine/Flags.lean ====
section
/-! DEFINITION. Every value an instruction writes to the flag `v[15]` (10_state.md R12, 42_alu.md R131, 44_display.md
R163): always 0 or 1. -/

namespace Sys2Proof.Machine

/-- A truth value as the flag holds it. -/
def flagByte (c : Bool) : Byte := if c then 1#8 else 0#8

/-- The 9-bit sum of ADD, 0 to 510 (R126). -/
def sum9 (a b : Byte) : BitVec 9 := a.zeroExtend 9 + b.zeroExtend 9

/-- Carry out of bit 7 (R126). -/
def carryFlag (a b : Byte) : Byte := ((sum9 a b) >>> 8).truncate 8

/-- The low byte of the 9-bit sum (R126). -/
def sumLow (a b : Byte) : Byte := (sum9 a b).truncate 8

/-- "1 when strictly greater": SUB and SUBN (R127, R129; strict, G5 of 93_implementation_defined.md). -/
def greaterFlag (a b : Byte) : Byte := flagByte (decide (b < a))

/-- The bit SHR shifts out (R128). -/
def lowBitFlag (a : Byte) : Byte := a &&& 1#8

/-- The bit SHL shifts out (R130). -/
def highBitFlag (a : Byte) : Byte := a >>> 7

/-- A pixel that was on is turned off (R163). -/
def collides (old placed : Row) : Bool := old &&& placed != 0#64

end Sys2Proof.Machine
end

