-- ==== Sys2Proof/Machine/Alu.lean ====
section
/-! DEFINITION. Register loads and the arithmetic and logic unit (42_alu.md). Where a rule has two statements, the
second reads the register file as the first left it (R13). -/

namespace Sys2Proof.Machine

/-- The shape of SUB, SUBN, SHR and SHL (R13): the flag first, then the result, read after the flag write. -/
def flagThen (s : State) (flag : Byte) (x : Reg) (result : State → Byte) : State :=
  (s.setReg VF flag).setReg x (result (s.setReg VF flag))

/-- 6xnn `LD Vx, nn` (R120). -/
def execLdImm (x : Reg) (nn : Imm8) (s : State) : Answer := .next (s.setReg x nn)

/-- 7xnn `ADD Vx, nn` (R121): wrapping, no flag. -/
def execAddImm (x : Reg) (nn : Imm8) (s : State) : Answer := .next (s.setReg x (s.reg x + nn))

/-- 8xy0 `LD Vx, Vy` (R122). -/
def execLdReg (x y : Reg) (s : State) : Answer := .next (s.setReg x (s.reg y))

/-- 8xy1 `OR Vx, Vy` (R123): no flag. -/
def execOrReg (x y : Reg) (s : State) : Answer := .next (s.setReg x (s.reg x ||| s.reg y))

/-- 8xy2 `AND Vx, Vy` (R124): no flag. -/
def execAndReg (x y : Reg) (s : State) : Answer := .next (s.setReg x (s.reg x &&& s.reg y))

/-- 8xy3 `XOR Vx, Vy` (R125): no flag. -/
def execXorReg (x y : Reg) (s : State) : Answer := .next (s.setReg x (s.reg x ^^^ s.reg y))

/-- 8xy4 `ADD Vx, Vy` (R126): the sum is formed once, from the values before the instruction. -/
def execAddReg (x y : Reg) (s : State) : Answer :=
  .next ((s.setReg VF (carryFlag (s.reg x) (s.reg y))).setReg x (sumLow (s.reg x) (s.reg y)))

/-- 8xy5 `SUB Vx, Vy` (R127). -/
def execSub (x y : Reg) (s : State) : Answer :=
  .next (flagThen s (greaterFlag (s.reg x) (s.reg y)) x fun t => t.reg x - t.reg y)

/-- 8xy6 `SHR Vx` (R128): `y` is ignored. -/
def execShr (x _y : Reg) (s : State) : Answer :=
  .next (flagThen s (lowBitFlag (s.reg x)) x fun t => t.reg x >>> 1)

/-- 8xy7 `SUBN Vx, Vy` (R129). -/
def execSubn (x y : Reg) (s : State) : Answer :=
  .next (flagThen s (greaterFlag (s.reg y) (s.reg x)) x fun t => t.reg y - t.reg x)

/-- 8xyE `SHL Vx` (R130): `y` is ignored. -/
def execShl (x _y : Reg) (s : State) : Answer :=
  .next (flagThen s (highBitFlag (s.reg x)) x fun t => t.reg x <<< 1)

end Sys2Proof.Machine
end

