-- ==== Sys2Proof/Machine/ControlTransfer.lean ====
section
/-! DEFINITION. Return, jump, call, skips and jump with offset (41_control_transfer.md). `PC` already holds the
instruction's address plus 2 (R8). -/

namespace Sys2Proof.Machine

/-- 00EE `RET` (R100). With `SP` above 16, which R20 rules out, the entry does not exist and the model stops
(log 16). -/
def execRet (s : State) : Answer :=
  if s.sp = 0#5 then .next (s.raise .stackUnderflow)
  else match s.stack[s.sp.toNat - 1]? with
    | some target => .next ((s.setSp (s.sp - 1#5)).setPc target)
    | none => .fault .stackEntryAbsent

/-- 1nnn `JP nnn` (R101). -/
def execJp (nnn : Imm12) (s : State) : Answer := .next (s.setPc (addrOf nnn))

/-- 2nnn `CALL nnn` (R102): pushes the advanced `PC` and jumps (90_conflicts.md C4, C5). -/
def execCall (nnn : Imm12) (s : State) : Answer :=
  if s.sp.toNat ≥ stackDepth then .next (s.raise .stackOverflow)
  else .next (((s.setEntry s.sp.toNat s.pc).setSp (s.sp + 1#5)).setPc (addrOf nnn))

/-- 3xnn `SE Vx, nn` (R103). -/
def execSeImm (x : Reg) (nn : Imm8) (s : State) : Answer := .next (s.skipIf (s.reg x == nn))

/-- 4xnn `SNE Vx, nn` (R104). -/
def execSneImm (x : Reg) (nn : Imm8) (s : State) : Answer := .next (s.skipIf (s.reg x != nn))

/-- 5xy0 `SE Vx, Vy` (R105). -/
def execSeReg (x y : Reg) (s : State) : Answer := .next (s.skipIf (s.reg x == s.reg y))

/-- 9xy0 `SNE Vx, Vy` (R106). -/
def execSneReg (x y : Reg) (s : State) : Answer := .next (s.skipIf (s.reg x != s.reg y))

/-- Bnnn `JP V0, nnn` (R107): no reduction modulo 4096. -/
def execJpV0 (nnn : Imm12) (s : State) : Answer := .next (s.setPc (wide (s.reg 0#4) + addrOf nnn))

end Sys2Proof.Machine
end

