-- ==== Sys2Proof/Machine/Display.lean ====
section
/-! DEFINITION. Clear screen and draw sprite (44_display.md). -/

namespace Sys2Proof.Machine

/-- 00E0 `CLS` (R160). -/
def execCls (s : State) : Answer := .next ((s.setFb (Vector.replicate 32 0#64)).emit .clear)

/-- The variables of DRW's loop (R161): the framebuffer, `coll`, `rows`. -/
structure Drawing where
  fb : Vector Row 32
  collided : Bool
  rows : List (Fin 32 × Row)
  deriving DecidableEq, Repr

/-- One pass of DRW's loop (R161): sprite row `r` at horizontal operand `h` into framebuffer row `t + r`; a row at 32
or beyond is skipped before its byte is read. -/
def drawRow (s : State) (h : Byte) (t r : Nat) (d : Drawing) : Drawing :=
  if inside : t + r < 32 then
    let placed := place (s.mem.read (s.baseOffset r)) h
    let old := d.fb[t + r]
    { fb := d.fb.set (t + r) (old ^^^ placed)
      collided := d.collided || collides old placed
      rows := d.rows ++ [(⟨t + r, inside⟩, old ^^^ placed)] }
  else d

/-- DRW's loop over the sprite rows 0 to `count - 1`, in order (R161). -/
def drawRows (s : State) (h : Byte) (t : Nat) : Nat → Drawing
  | 0 => { fb := s.fb, collided := false, rows := [] }
  | k + 1 => drawRow s h t k (drawRows s h t k)

/-- What DRW leaves when `count` rows were drawn (R161, R163, R164): the framebuffer, the flag, and one event unless
nothing was drawn. -/
def finishDrawing (s : State) (count : Nat) (d : Drawing) : State :=
  let t := (s.setFb d.fb).setReg VF (flagByte d.collided)
  if count > 0 then t.emit (.regionUpdated d.rows) else t

/-- Dxyn `DRW Vx, Vy, n` (R161): both registers are read before anything is written; the bound is checked for the
drawn rows only, before any row changes (D14; log 13). -/
def execDrw (x y : Reg) (n : Imm4) (s : State) : Answer :=
  let count := rowCount n (s.reg y)
  let drawn := finishDrawing s count (drawRows s (s.reg x) (s.reg y).toNat count)
  if count > 0 then withAccess s (s.baseOffset 0) count (.next drawn) else .next drawn

end Sys2Proof.Machine
end

