-- ==== Sys2Proof/Machine/Illegal.lean ====
section
/-! DEFINITION. The six illegal spaces (30_encoding.md R69): each raises its error kind in the decode phase, with `PC`
already advanced and nothing else changed (40_dispatcher.md R92); none is a no-op (R71, R204). -/

namespace Sys2Proof.Machine

/-- 0nnn other than 00E0 and 00EE (R69, C10). -/
def execIllegal0 (_nnn : Imm12) (s : State) : Answer := .next (s.raise .unsupportedInstruction)

/-- 5xyn with `n` not 0 (R69, R105). -/
def execIllegal5 (_x _y : Reg) (_n : Imm4) (s : State) : Answer := .next (s.raise .invalidEncoding)

/-- 8xyn with an unknown `n` (R69, R132). -/
def execIllegal8 (_x _y : Reg) (_n : Imm4) (s : State) : Answer := .next (s.raise .invalidEncoding)

/-- 9xyn with `n` not 0 (R69, R106, D12; log 18). -/
def execIllegal9 (_x _y : Reg) (_n : Imm4) (s : State) : Answer := .next (s.raise .invalidEncoding)

/-- Exnn with an unknown `nn` (R69). -/
def execIllegalE (_x : Reg) (_nn : Imm8) (s : State) : Answer := .next (s.raise .unsupportedInstruction)

/-- Fxnn with an unknown `nn` (R69). -/
def execIllegalF (_x : Reg) (_nn : Imm8) (s : State) : Answer := .next (s.raise .unsupportedInstruction)

end Sys2Proof.Machine
end

