-- ==== Sys2Proof/Machine/IndexMemory.lean ====
section
/-! DEFINITION. The address register and the memory instructions (43_index_memory.md). No access changes `I`. -/

namespace Sys2Proof.Machine

/-- Annn `LD I, nnn` (R140). -/
def execLdI (nnn : Imm12) (s : State) : Answer := .next (s.setI (addrOf nnn))

/-- Fx1E `ADD I, Vx` (R141): modulo 65536, no flag. -/
def execAddI (x : Reg) (s : State) : Answer := .next (s.setI (s.i + wide (s.reg x)))

/-- Fx29 `LD F, Vx` (R142): the whole byte is tested. -/
def execLdF (x : Reg) (s : State) : Answer :=
  if (s.reg x).toNat ≥ 16 then .next (s.raise .invalidDigit) else .next (s.setI (digitAddr (s.reg x)))

/-- Fx33 `LD B, Vx` (R143). -/
def execLdB (x : Reg) (s : State) : Answer :=
  withAccess s (s.baseOffset 0) 3 <| .next <| s.setMem <|
    ((s.mem.write (s.baseOffset 0) (hundreds (s.reg x))).write
      (s.baseOffset 1) (tens (s.reg x))).write (s.baseOffset 2) (ones (s.reg x))

/-- The memory after `v[0]` to `v[count - 1]` were stored from `I` on (R144). -/
def storeRegs (s : State) : Nat → Memory
  | 0 => s.mem
  | k + 1 => (storeRegs s k).write (s.baseOffset k) (s.reg (regOfIndex k))

/-- The state after `v[0]` to `v[count - 1]` were loaded from `I` on (R145). -/
def loadRegs (s : State) : Nat → State
  | 0 => s
  | k + 1 => (loadRegs s k).setReg (regOfIndex k) (s.mem.read (s.baseOffset k))

/-- Fx55 `LD [I], Vx` (R144). -/
def execLdMemVx (x : Reg) (s : State) : Answer :=
  withAccess s (s.baseOffset 0) (x.toNat + 1) (.next (s.setMem (storeRegs s (x.toNat + 1))))

/-- Fx65 `LD Vx, [I]` (R145). -/
def execLdVxMem (x : Reg) (s : State) : Answer :=
  withAccess s (s.baseOffset 0) (x.toNat + 1) (.next (loadRegs s (x.toNat + 1)))

end Sys2Proof.Machine
end

