-- ==== Sys2Proof/Machine/InputTimers.lean ====
section
/-! DEFINITION. Random byte, key queries, the wait for a key, and the timers (45_input_random_timers.md). -/

namespace Sys2Proof.Machine

/-- Cxnn `RND Vx, nn` (R171): one draw per execution, whatever the mask (R170). -/
def execRnd (x : Reg) (nn : Imm8) (s : State) : Answer :=
  .next ((s.setReg x (Config.drawByte s.answers &&& nn)).countAnswer)

/-- Ex9E `SKP Vx` (R173): the whole byte `v[x]` is the key index (R172). -/
def execSkp (x : Reg) (s : State) : Answer :=
  .next ((s.skipIf (Config.keyDown s.answers (s.reg x))).countAnswer)

/-- ExA1 `SKNP Vx` (R174). -/
def execSknp (x : Reg) (s : State) : Answer :=
  .next ((s.skipIf (!Config.keyDown s.answers (s.reg x))).countAnswer)

/-- Fx06 `LD Vx, DT` (R176). -/
def execLdVxDT (x : Reg) (s : State) : Answer := .next (s.setReg x s.dt)

/-- Fx0A `LD Vx, K` (R175): the step ends in `WAIT_KEY(x)`; `State.pressKey` completes it. -/
def execLdVxK (x : Reg) (s : State) : Answer := .next (s.setPhase (.waitKey x))

/-- Fx15 `LD DT, Vx` (R177). -/
def execLdDTVx (x : Reg) (s : State) : Answer := .next (s.setDt (s.reg x))

/-- Fx18 `LD ST, Vx` (R179). -/
def execLdSTVx (x : Reg) (s : State) : Answer := .next (s.setSt (s.reg x))

end Sys2Proof.Machine
end

