-- ==== Sys2Proof/Machine/Step.lean ====
section
/-! DEFINITION. One transition of the machine (40_dispatcher.md R95, R98), made of the operations of Machine/Ops.lean and
the execute phase of Machine/Dispatch.lean. -/

namespace Sys2Proof.Machine

/-- One transition of the core: the next move of the schedule; an instruction step runs `exec` (R95). -/
def step (s : State) : Host.Outcome State Fault Refusal := transition exec s

/-- `s` with the opcode-table word `w` of `nbits` bits where `step` fetches its next instruction. The bits above
`nbits` are 0; an instruction is one word (R64). -/
def State.withFetchWord (s : State) (nbits w : Nat) : State := s.placeWord (BitVec.ofNat 16 (w % 2 ^ nbits))

end Sys2Proof.Machine
end

