-- ==== Sys2Proof/Safety.lean ====
section
/-! DEFINITION. The terms the statements are made in: the invariants of a run (10_state.md R32, R17; 70_reset_and_hazards.md
R236), what an instruction may change, and the spec's tables over all instructions. -/

namespace Sys2Proof.Machine

/-! ## Invariants -/

/-- R32: `SP` is 0 to 16 and `ERR` is nonzero exactly in `HALTED`; the widths that R32 lists are in the types of the
fields. With them the memory's canonical form, which is the model's own (log 22). -/
def State.Consistent (s : State) : Prop :=
  s.sp.toNat ≤ 16 ∧ (s.err ≠ none ↔ s.phase = .halted) ∧ s.mem.wf

/-- R17: `PC` never exceeds 0x10FE; what makes it so is that every live return address is at most 0xFFF. -/
def State.PcBounded (s : State) : Prop :=
  s.pc.toNat ≤ 0x10FE ∧ s.sp.toNat ≤ 16 ∧ ∀ k, k < s.sp.toNat → ∀ a, s.stack[k]? = some a → a.toNat ≤ 0xFFF

/-- What one display event does to a screen of 32 rows (R29). -/
def DisplayEvent.applyTo (screen : Vector Row 32) : DisplayEvent → Vector Row 32
  | .clear => Vector.replicate 32 0#64
  | .regionUpdated rows => rows.foldl (fun rowsSoFar u => rowsSoFar.set u.1 u.2) screen

/-- The events replayed on 32 zero rows (R236). -/
def replay (events : List DisplayEvent) : Vector Row 32 :=
  events.foldl DisplayEvent.applyTo (Vector.replicate 32 0#64)

/-- R236: the framebuffer is what the event stream describes. -/
def State.Replayed (s : State) : Prop := replay s.events = s.fb

/-- An instruction step is the next transition: `PHASE` is `RUN` and the environment offers one (R95). -/
def State.Running (s : State) : Prop := s.phase = .run ∧ offersInstruction s.schedule = true

/-- The state an instruction's rule starts from in a step (R8, R91): `PC` advanced, the offer used up. -/
def State.started (s : State) : State := { s with pc := s.pc + 2#16, schedule := s.schedule.tail }

/-! ## Frames -/

/-- What an instruction may change: the registers, stack entries and memory bytes listed, and the fields set true.
Everything else is kept. -/
structure Footprint where
  regs : List Reg := []
  entries : List Nat := []
  bytes : List Nat := []
  i : Bool := false
  pc : Bool := false
  dt : Bool := false
  st : Bool := false
  sp : Bool := false
  fb : Bool := false
  halts : Bool := false
  waits : Bool := false
  events : Bool := false
  schedule : Bool := false
  answers : Bool := false

/-- Between `s` and `t` nothing changed outside the footprint; memory is compared byte by byte. -/
def Keeps (f : Footprint) (s t : State) : Prop :=
  (∀ k, k ∉ f.regs → t.reg k = s.reg k) ∧
  (∀ k, k ∉ f.entries → t.stack[k]? = s.stack[k]?) ∧
  (∀ a, a ∉ f.bytes → t.mem.read a = s.mem.read a) ∧
  (f.i = false → t.i = s.i) ∧
  (f.pc = false → t.pc = s.pc) ∧
  (f.dt = false → t.dt = s.dt) ∧
  (f.st = false → t.st = s.st) ∧
  (f.sp = false → t.sp = s.sp) ∧
  (f.fb = false → t.fb = s.fb) ∧
  (f.halts = false → t.err = s.err) ∧
  (f.halts = false → f.waits = false → t.phase = s.phase) ∧
  (f.events = false → t.events = s.events) ∧
  (f.schedule = false → t.schedule = s.schedule) ∧
  (f.answers = false → t.answers = s.answers)

/-- The state in which an error of kind `k` halts `s` (R201, R203): `PHASE` and `ERR` and nothing else. -/
def State.haltedWith (s : State) (k : ErrorKind) : State := { s with phase := .halted, err := some k }

/-! ## The spec's tables over all instructions -/

/-- The general registers an instruction reads (R11). -/
def readsReg (i : Instr) (k : Reg) : Bool :=
  match i with
  | .seImm x _ | .sneImm x _ | .addImm x _ | .shr x _ | .shl x _ => k == x
  | .seReg x y | .sneReg x y | .orReg x y | .andReg x y | .xorReg x y | .addReg x y | .sub x y | .subn x y
  | .drw x y _ => k == x || k == y
  | .ldReg _ y => k == y
  | .jpV0 _ => k == 0#4
  | .skp x | .sknp x | .ldDTVx x | .ldSTVx x | .addI x | .ldF x | .ldB x => k == x
  | .ldMemVx x => decide (k.toNat ≤ x.toNat)
  | .cls | .ret | .jp _ | .call _ | .ldImm _ _ | .ldI _ | .rnd _ _ | .ldVxDT _ | .ldVxK _ | .ldVxMem _
  | .illegal0 _ | .illegal5 _ _ _ | .illegal8 _ _ _ | .illegal9 _ _ _ | .illegalE _ _ | .illegalF _ _ => false

/-- The general registers an instruction's execute phase writes when it completes (R11). Fx0A writes none there: the
key press that ends its wait does (R175). -/
def writesReg (i : Instr) (k : Reg) : Bool :=
  match i with
  | .ldImm x _ | .addImm x _ | .ldReg x _ | .orReg x _ | .andReg x _ | .xorReg x _ | .rnd x _ | .ldVxDT x => k == x
  | .addReg x _ | .sub x _ | .subn x _ | .shr x _ | .shl x _ => k == 0xF#4 || k == x
  | .drw _ _ _ => k == 0xF#4
  | .ldVxMem x => decide (k.toNat ≤ x.toNat)
  | .cls | .ret | .jp _ | .call _ | .seImm _ _ | .sneImm _ _ | .seReg _ _ | .sneReg _ _ | .ldI _ | .jpV0 _
  | .skp _ | .sknp _ | .ldVxK _ | .ldDTVx _ | .ldSTVx _ | .addI _ | .ldF _ | .ldB _ | .ldMemVx _
  | .illegal0 _ | .illegal5 _ _ _ | .illegal8 _ _ _ | .illegal9 _ _ _ | .illegalE _ _ | .illegalF _ _ => false

/-- The instructions that write `v[15]` as a flag (R12), with the destination register of the five that have one. -/
def flagWriter (i : Instr) : Option (Option Reg) :=
  match i with
  | .addReg x _ | .sub x _ | .subn x _ | .shr x _ | .shl x _ => some (some x)
  | .drw _ _ _ => some none
  | _ => none

/-- How many rows a DRW draws (R161), with the spec's numbers written out. -/
def rowsDrawn (s : State) (y : Reg) (n : Imm4) : Nat := min n.toNat (32 - (s.reg y).toNat)

/-- The execute-phase and decode-phase errors of R200, with the spec's numbers written out; `s` is the state in which
the instruction starts. -/
def executeError (i : Instr) (s : State) : Option ErrorKind :=
  match i with
  | .ldB _ => if s.i.toNat + 2 > 0xFFE then some .addressFault else none
  | .ldMemVx x | .ldVxMem x => if s.i.toNat + x.toNat > 0xFFE then some .addressFault else none
  | .drw _ y n =>
    if rowsDrawn s y n > 0 ∧ s.i.toNat + rowsDrawn s y n - 1 > 0xFFE then some .addressFault else none
  | .call _ => if s.sp.toNat ≥ 16 then some .stackOverflow else none
  | .ret => if s.sp.toNat = 0 then some .stackUnderflow else none
  | .ldF x => if (s.reg x).toNat ≥ 16 then some .invalidDigit else none
  | .illegal5 _ _ _ | .illegal8 _ _ _ | .illegal9 _ _ _ => some .invalidEncoding
  | .illegal0 _ | .illegalE _ _ | .illegalF _ _ => some .unsupportedInstruction
  | .cls | .jp _ | .seImm _ _ | .sneImm _ _ | .seReg _ _ | .ldImm _ _ | .addImm _ _ | .ldReg _ _ | .orReg _ _
  | .andReg _ _ | .xorReg _ _ | .addReg _ _ | .sub _ _ | .shr _ _ | .subn _ _ | .shl _ _ | .sneReg _ _ | .ldI _
  | .jpV0 _ | .rnd _ _ | .skp _ | .sknp _ | .ldVxDT _ | .ldVxK _ | .ldDTVx _ | .ldSTVx _ | .addI _ => none

/-- The error kind of a word that selects no instruction (R69), from the numbers of its fields: `w` is
`opcode * 4096 + x * 256 + y * 16 + n`. -/
def wordError (w : Nat) : Option ErrorKind :=
  match w / 4096 with
  | 0x0 => if w % 4096 = 0x0E0 ∨ w % 4096 = 0x0EE then none else some .unsupportedInstruction
  | 0x5 => if w % 16 = 0 then none else some .invalidEncoding
  | 0x8 => if w % 16 ∈ [0x8, 0x9, 0xA, 0xB, 0xC, 0xD, 0xF] then some .invalidEncoding else none
  | 0x9 => if w % 16 = 0 then none else some .invalidEncoding
  | 0xE => if w % 256 = 0x9E ∨ w % 256 = 0xA1 then none else some .unsupportedInstruction
  | 0xF =>
    if w % 256 ∈ [0x06, 0x0A, 0x15, 0x18, 0x1E, 0x29, 0x33, 0x55, 0x65] then none else some .unsupportedInstruction
  | _ => none

/-- How an instruction leaves `PC` (R16), `s.pc` being its address plus 2; the skips of SKP and SKNP hang on the
environment's answer. -/
def pcAfter (i : Instr) (s : State) : Addr :=
  match i with
  | .jp nnn => nnn.zeroExtend 16
  | .call nnn => if s.sp.toNat ≥ 16 then s.pc else nnn.zeroExtend 16
  | .ret => if s.sp.toNat = 0 then s.pc else (s.stack[s.sp.toNat - 1]?).getD s.pc
  | .jpV0 nnn => BitVec.ofNat 16 ((s.reg 0#4).toNat + nnn.toNat)
  | .seImm x nn => if s.reg x = nn then s.pc + 2#16 else s.pc
  | .sneImm x nn => if s.reg x ≠ nn then s.pc + 2#16 else s.pc
  | .seReg x y => if s.reg x = s.reg y then s.pc + 2#16 else s.pc
  | .sneReg x y => if s.reg x ≠ s.reg y then s.pc + 2#16 else s.pc
  | .skp x => if Config.keyDown s.answers (s.reg x) = true then s.pc + 2#16 else s.pc
  | .sknp x => if Config.keyDown s.answers (s.reg x) = false then s.pc + 2#16 else s.pc
  | .cls | .ldImm _ _ | .addImm _ _ | .ldReg _ _ | .orReg _ _ | .andReg _ _ | .xorReg _ _ | .addReg _ _ | .sub _ _
  | .shr _ _ | .subn _ _ | .shl _ _ | .ldI _ | .rnd _ _ | .drw _ _ _ | .ldVxDT _ | .ldVxK _ | .ldDTVx _ | .ldSTVx _
  | .addI _ | .ldF _ | .ldB _ | .ldMemVx _ | .ldVxMem _ | .illegal0 _ | .illegal5 _ _ _ | .illegal8 _ _ _
  | .illegal9 _ _ _ | .illegalE _ _ | .illegalF _ _ => s.pc

/-- The calls of a list of targets, one inside the other (R216): the execute phases of 2nnn in a row. -/
def nestedCalls : List Imm12 → State → Answer
  | [], s => .next s
  | nnn :: rest, s =>
    match exec (.call nnn) s with
    | .next t => nestedCalls rest t
    | .fault r => .fault r
    | .refused r => .refused r

/-- The sprite row that DRW places in framebuffer row `k`, when its first row is `t` (R161). -/
def spriteRow (s : State) (h : Byte) (t k : Nat) : Row := place (s.mem.read (s.i.toNat + (k - t))) h

/-- The state with byte 0xFFF replaced: the byte no fetch and no instruction can touch (R45). -/
def State.withByteFFF (s : State) (b : Byte) : State := { s with mem := s.mem.write 0xFFF b }

/-- The next state mapped, a stop left as it is. -/
def onNext (f : State → State) : Answer → Answer
  | .next s => .next (f s)
  | .fault r => .fault r
  | .refused r => .refused r

end Sys2Proof.Machine
end

