-- ==== Sys2Proof/Certificates/Slice0/Obligations.lean ====
section
/-! DEFINITION. The statements for the provers, from the spec's numbered rules. Frames are `Keeps` of Sys2Proof/Safety.lean;
`exec` is applied to the state in which `PC` is already the instruction's address plus 2 (R8). -/

open Sys2Proof Sys2Proof.Machine

/-- Decoding the bytes of any well-formed instruction gives it back. Rests on: 30_encoding.md sections 2 and 4
(formats, opcode map), 30_encoding.md section 5 (illegal encodings), 20_memory.md section 3 (byte order),
92_eei_decisions.md D7, D8, D9 (selector values), notes/assumptions/18.md (log 18). For every well-formed instruction,
with every operand at every value, and whatever bytes follow, decoding its two bytes (high byte first) gives that
instruction and leaves the bytes that follow. The selector values of families 8, E and F are the spec's decisions D7
to D9. That the table's illegal rows are instructions of their own is the model's choice of form (log 18, DESIGN
CHOICE). -/
def Obligations.DecodeOfEncodeIsIdentity : Prop :=
  ∀ (i : Instr) (rest : List Byte), i.wellFormed = true → decode (encode i ++ rest) = .ok (i, rest)

/-- Every 16-bit word decodes to a well-formed instruction whose encoding is that word. Rests on: 30_encoding.md
sections 4 and 7 (classify, the machine-readable table), 92_eei_decisions.md D7, D8, D9, notes/assumptions/18.md (log
18). Decoding is total over all words: each word is claimed by exactly one row of the table, the term it decodes to is
well-formed, and encoding that term gives the word back, so no bit is lost. That the table's illegal rows are
instructions of their own is the model's choice of form (log 18, DESIGN CHOICE). -/
def Obligations.EveryWordIsOneInstruction : Prop :=
  ∀ w : Word, (decodeWord w).wellFormed = true ∧ encodeWord (decodeWord w) = w

/-- Words of the spec's decoder vectors decode to the instructions the spec names. Rests on: 95_test_vectors.md
section 2.1, notes/assumptions/18.md (log 18). Twelve of the words that section 2.1 of the test vectors classifies
decode to the instruction or the illegal row it names. That the table's illegal rows are instructions of their own is
the model's choice of form (log 18, DESIGN CHOICE). -/
def Obligations.SpecWordsDecode : Prop :=
  decodeTableWord 16 0x00E0 = some .cls ∧ decodeTableWord 16 0x00EE = some .ret ∧
  decodeTableWord 16 0x00E1 = some (.illegal0 0x0E1#12) ∧ decodeTableWord 16 0x1ABC = some (.jp 0xABC#12) ∧
  decodeTableWord 16 0x8AB4 = some (.addReg 0xA#4 0xB#4) ∧ decodeTableWord 16 0x8AB8 = some (.illegal8 0xA#4 0xB#4 0x8#4) ∧
  decodeTableWord 16 0x5AB1 = some (.illegal5 0xA#4 0xB#4 0x1#4) ∧ decodeTableWord 16 0x9120 = some (.sneReg 0x1#4 0x2#4) ∧
  decodeTableWord 16 0xD125 = some (.drw 0x1#4 0x2#4 0x5#4) ∧ decodeTableWord 16 0xE19E = some (.skp 0x1#4) ∧
  decodeTableWord 16 0xF765 = some (.ldVxMem 0x7#4) ∧ decodeTableWord 16 0xF007 = some (.illegalF 0x0#4 0x07#8)

/-- The six fields of a word are the mask-and-shift formulas, and they overlap as the spec says. Rests on: R61, R62.
For every word the decoder's opcode, x, y, n, nn and nnn are the values of the mask-and-shift formulas, nn = y * 16 +
n, nnn = x * 256 + nn and w = opcode * 4096 + nnn. -/
def Obligations.FieldsAreMaskAndShift : Prop :=
  ∀ w : Word,
  (opcodeField w).toNat = (w.toNat >>> 12) &&& 0xF ∧ (xField w).toNat = (w.toNat >>> 8) &&& 0xF ∧
  (yField w).toNat = (w.toNat >>> 4) &&& 0xF ∧ (nField w).toNat = w.toNat &&& 0xF ∧
  (nnField w).toNat = w.toNat &&& 0xFF ∧ (nnnField w).toNat = w.toNat &&& 0xFFF ∧
  (nnField w).toNat = (yField w).toNat * 16 + (nField w).toNat ∧
  (nnnField w).toNat = (xField w).toNat * 256 + (nnField w).toNat ∧
  w.toNat = (opcodeField w).toNat * 4096 + (nnnField w).toNat

/-- A word raises InvalidEncoding or UnsupportedInstruction exactly when the spec calls it illegal. Rests on:
30_encoding.md section 5 (illegal encodings), 92_eei_decisions.md D7, D8, D9, D12, D32, notes/assumptions/18.md (log
18). For every word, read as a number: where the spec's table of illegal encodings gives it an error kind, executing
what it decodes to halts with that kind and changes nothing else; where it gives none, the word decodes to an
instruction that raises neither of the two decode-phase kinds. 9xyn with n not 0 follows the spec's decision D12. That
the table's illegal rows are instructions of their own is the model's choice of form (log 18, DESIGN CHOICE). -/
def Obligations.IllegalWordsHalt : Prop :=
  ∀ (w : Word) (s : State),
  (∀ k, wordError w.toNat = some k → exec (decodeWord w) s = .next (s.haltedWith k)) ∧
  (wordError w.toNat = none →
    executeError (decodeWord w) s ≠ some .invalidEncoding ∧ executeError (decodeWord w) s ≠ some .unsupportedInstruction)

/-- Each of the six illegal rows completes by halting with its error kind. Rests on: 30_encoding.md section 5 (illegal
encodings), 40_dispatcher.md, DECODE, 92_eei_decisions.md D12, notes/assumptions/18.md (log 18). For every operand and
state, executing an illegal row answers a next state that is HALTED with the row's kind in ERR and in which nothing
else changed: UnsupportedInstruction for 0nnn, Exnn, Fxnn, InvalidEncoding for 5xyn, 8xyn, 9xyn (the last by the
spec's decision D12). That the table's illegal rows are instructions of their own is the model's choice of form (log
18, DESIGN CHOICE). -/
def Obligations.IllegalRowsRaise : Prop :=
  ∀ (s : State) (x y : Reg) (n : Imm4) (nn : Imm8) (nnn : Imm12),
  (∀ i, i = .illegal0 nnn ∨ i = .illegalE x nn ∨ i = .illegalF x nn → ∃ t, exec i s = .next t ∧
    t.phase = .halted ∧ t.err = some .unsupportedInstruction ∧ Keeps { halts := true } s t) ∧
  (∀ i, i = .illegal5 x y n ∨ i = .illegal8 x y n ∨ i = .illegal9 x y n → ∃ t, exec i s = .next t ∧
    t.phase = .halted ∧ t.err = some .invalidEncoding ∧ Keeps { halts := true } s t)

/-- A step in RUN fetches at PC or raises AddressFault, and runs the decoded instruction with PC advanced. Rests on:
40_dispatcher.md, FETCH (R91), EXECUTE (R93) and the step function (R98), notes/assumptions/3.md (log 3). In RUN with
an instruction step offered: if PC + 2 > 0xFFF the step halts with AddressFault and PC stays; otherwise the two bytes
at PC decode as the word mem[PC] * 256 + mem[PC + 1], and when they decode to an instruction, the step is exec of that
instruction on the state whose PC is advanced by 2 (mod 65536). Around this the step only uses up the offer in the
schedule, a field of the model's own: that is the model's choice (log 3, DESIGN CHOICE) and no rule of the spec. -/
def Obligations.StepRunsDecodedInstruction : Prop :=
  ∀ s : State, s.Running →
  (s.pc.toNat + 2 > 0xFFF →
    step s = .next { s with schedule := s.schedule.tail, phase := .halted, err := some .addressFault }) ∧
  (decode [s.mem.read s.pc.toNat, s.mem.read (s.pc.toNat + 1)] =
    .ok (decodeWord (BitVec.ofNat 16 ((s.mem.read s.pc.toNat).toNat * 256 + (s.mem.read (s.pc.toNat + 1)).toNat)), [])) ∧
  (s.pc.toNat + 2 ≤ 0xFFF → ∀ i, decode [s.mem.read s.pc.toNat, s.mem.read (s.pc.toNat + 1)] = .ok (i, []) →
    step s = exec i { s with pc := BitVec.ofNat 16 ((s.pc.toNat + 2) % 65536), schedule := s.schedule.tail })

/-- The core's transitions other than an instruction step, by PHASE and event. Rests on: 40_dispatcher.md, the table
of transitions by PHASE, 60_exceptions.md section 2 (HALTED), 45_input_random_timers.md, Tick and the key press,
92_eei_decisions.md D18, D20, D24, notes/assumptions/3.md (log 3), notes/assumptions/4.md (log 4). A Tick in RUN or
WAIT_KEY takes 1 from each timer down to 0; a key press in RUN is lost and in WAIT_KEY(x) writes its index to v[x] and
returns to RUN; in WAIT_KEY with no event, and in HALTED whatever is offered but reset, nothing changes. That a step
then answers the same state, less the offer used up, is the model's choice (log 3 and log 4, DESIGN CHOICE). -/
def Obligations.TransitionTable : Prop :=
  ∀ (s : State) (rest : List Move),
  (s.phase ≠ .halted → s.schedule = .tick :: rest → step s = .next { s with
    schedule := rest, dt := BitVec.ofNat 8 (s.dt.toNat - 1), st := BitVec.ofNat 8 (s.st.toNat - 1) }) ∧
  (∀ key, s.phase = .run → s.schedule = .keyPress key :: rest → step s = .next { s with schedule := rest }) ∧
  (∀ x key, s.phase = .waitKey x → s.schedule = .keyPress key :: rest → ∃ t, step s = .next t ∧
    t.reg x = BitVec.ofNat 8 key.toNat ∧ t.phase = .run ∧ t.schedule = rest ∧
    Keeps { regs := [x], waits := true, schedule := true } s t) ∧
  (∀ x, s.phase = .waitKey x → offersInstruction s.schedule = true →
    step s = .next { s with schedule := s.schedule.tail }) ∧
  (s.phase = .halted → (∀ image, s.schedule.head? ≠ some (.reset image)) →
    step s = .next { s with schedule := s.schedule.tail })

/-- HALTED is absorbing: any number of steps without a reset changes nothing. Rests on: 60_exceptions.md section 2
(HALTED is absorbing), 92_eei_decisions.md D24, notes/assumptions/3.md (log 3), notes/assumptions/4.md (log 4). From a
halted state whose schedule holds no reset, any number of steps (instruction offers, Ticks, key presses) leaves every
field as it was but the schedule, of which that many moves are used up. The schedule and that a halted machine answers
its own state are the model's choice (log 3 and log 4, DESIGN CHOICE). -/
def Obligations.HaltedStaysHalted : Prop :=
  ∀ (n : Nat) (s : State), s.phase = .halted → (∀ image, .reset image ∉ s.schedule) →
  Sys2Proof.core.run n s = .next { s with schedule := s.schedule.drop n }

/-- Reset in any state gives every register its reset value and memory the font and the image. Rests on: 10_state.md
section 10 (reset values), 70_reset_and_hazards.md section 1 (reset), 92_eei_decisions.md D21, D22, D31,
notes/assumptions/3.md (log 3), notes/assumptions/19.md (log 19), notes/assumptions/22.md (log 22). When a reset with
an image is the next move, in any PHASE, the step answers the reset state: v, I, DT, ST, stack and framebuffer zero
(the spec's decision D21), PC = 0x200, SP = 0, RUN, no error, no event; memory holds the font table at 0x000 to 0x04F,
the image from 0x200, and zero in every other byte; the rest of the schedule, a field of the model's own, goes on (the
model's choice, log 3, DESIGN CHOICE). That the memory is a list in one canonical form (the clause t.mem.wf) and that
the image's bound is in its type are the model's choice of form (log 22 and log 19, DESIGN CHOICE). -/
def Obligations.ResetLoadsImage : Prop :=
  ∀ (s : State) (image : Image) (rest : List Move), s.schedule = .reset image :: rest → ∃ t, step s = .next t ∧
  (∀ k, t.reg k = 0x00#8) ∧ t.i = 0x0000#16 ∧ t.pc = 0x0200#16 ∧ t.dt = 0x00#8 ∧ t.st = 0x00#8 ∧ t.sp.toNat = 0 ∧
  (∀ (k : Nat) a, t.stack[k]? = some a → a = 0x0000#16) ∧ (∀ r : Fin 32, t.fb[r] = 0#64) ∧
  t.phase = .run ∧ t.errCode = 0 ∧ t.events = [] ∧ t.schedule = rest ∧ t.mem.wf ∧
  (∀ k b, image.bytes[k]? = some b → t.mem.read (0x200 + k) = b) ∧
  (∀ k b, font[k]? = some b → t.mem.read k = b) ∧
  (∀ a, 0x50 ≤ a → a < 0x200 → t.mem.read a = 0x00#8) ∧
  (∀ a, 0x200 + image.bytes.length ≤ a → a < 0x1000 → t.mem.read a = 0x00#8)

/-- Every step keeps SP at most 16, ERR nonzero exactly in HALTED, and the memory canonical. Rests on: 10_state.md
section 11 (invariants), 20_memory.md sections 1 and 2, notes/assumptions/22.md (log 22). From every consistent state,
reachable or not, a step that answers a next state answers a consistent one: SP is 0 to 16, ERR is set exactly when
PHASE is HALTED, and the memory lists rising addresses of the 4096-byte space only, none with its reset content. That
the memory is held so, in one canonical form, is the model's choice (log 22, DESIGN CHOICE) and no rule of the spec,
which says only that there are 4096 bytes; the clauses on SP and ERR are the spec's. -/
def Obligations.StepKeepsConsistent : Prop :=
  ∀ s t : State, s.Consistent → step s = .next t → t.Consistent

/-- Every step keeps PC at most 0x10FE and every live return address at most 0xFFF. Rests on: 10_state.md section 4
(program counter), 20_memory.md section 2 (the bound), 41_control_transfer.md. The spec derives that PC never exceeds
0x10FE. The invariant that carries it: PC is at most 0x10FE, SP at most 16 and every live stack entry at most 0xFFF. A
step from any state with it answers a state with it. -/
def Obligations.StepKeepsPcBounded : Prop :=
  ∀ s t : State, s.PcBounded → step s = .next t → t.PcBounded

/-- Every step keeps the framebuffer equal to the event stream replayed on 32 zero rows. Rests on:
70_reset_and_hazards.md section 3 (the host), 44_display.md (events of 00E0 and Dxyn), 92_eei_decisions.md D16,
notes/assumptions/14.md (log 14). If replaying the display events emitted so far on 32 zero rows gives the
framebuffer, it does so after any step, whatever the instruction or event. That State keeps the whole stream since
reset is the model's choice (log 14, DESIGN CHOICE). -/
def Obligations.StepKeepsReplay : Prop :=
  ∀ s t : State, s.Replayed → step s = .next t → t.Replayed

/-- The reset state meets the three invariants, whatever the environment will offer. Rests on: 10_state.md sections 10
and 11, 70_reset_and_hazards.md section 1, notes/assumptions/3.md (log 3), notes/assumptions/14.md (log 14),
notes/assumptions/15.md (log 15), notes/assumptions/22.md (log 22). State.reset with any schedule is consistent, has
PC and return addresses in bounds, and its framebuffer is what its empty event stream describes. The schedule is a
field of the model's own (log 3, DESIGN CHOICE) and may be any list. Consistent contains the model's canonical form of
the memory (log 22, DESIGN CHOICE), State.reset is the reset with the empty image (log 15, DESIGN CHOICE), and the
stream is kept in State from reset on (log 14, DESIGN CHOICE). -/
def Obligations.ResetIsSound : Prop :=
  ∀ moves : List Move, (State.reset.setSchedule moves).Consistent ∧ (State.reset.setSchedule moves).PcBounded ∧
  (State.reset.setSchedule moves).Replayed

/-- The content of byte 0xFFF influences nothing and is changed by nothing but reset. Rests on: 20_memory.md section 2
(the bound, byte 0xFFF), 92_eei_decisions.md D1, notes/assumptions/3.md (log 3), notes/assumptions/22.md (log 22). For
every consistent state and every value put into byte 0xFFF, a step other than a reset answers the same as without it,
with that byte put in afterwards. It rests on MEM_LAST = 0xFFE, the spec's decision D1; that a reset is told by the
schedule's first move is the model's choice (log 3, DESIGN CHOICE). The premise that the state is consistent contains
the model's canonical form of the memory, by which equal memories are equal lists (log 22, DESIGN CHOICE). -/
def Obligations.ByteFFFIsUnobservable : Prop :=
  ∀ (s : State) (b : Byte), s.Consistent → (∀ image, s.schedule.head? ≠ some (.reset image)) →
  step (s.withByteFFF b) = onNext (fun t => t.withByteFFF b) (step s)

/-- With SP at most 16 every step answers a next state. Rests on: 40_dispatcher.md (the loop, the transitions),
60_exceptions.md section 2, 10_state.md section 5 (SP), notes/assumptions/4.md (log 4). The model stops nowhere that a
run can come to: from any state with SP in 0 to 16 the step answers a next state, errors included (they are next
states in HALTED). Where the spec has no transition (WAIT_KEY with no event, HALTED without a reset) that next state
is the same state again: this stutter is the model's choice (log 4, DESIGN CHOICE). -/
def Obligations.NoStepStops : Prop :=
  ∀ s : State, s.sp.toNat ≤ 16 → ∃ t, step s = .next t

/-- A step halts exactly under the conditions of the error table, and then of the spec's state only PC, PHASE and ERR
differ. Rests on: 60_exceptions.md sections 1, 2 and 3 (the error kinds, the state at a halt), 92_eei_decisions.md D1,
D2, D12, D14, D24, notes/assumptions/3.md (log 3). In RUN, with the fetch in bounds and SP at most 16: if the decoded
instruction meets a condition of the table of error kinds, the step answers the state before the instruction with PC
advanced, HALTED, and that kind in ERR; if it meets none, the step answers a state that is not HALTED and has the ERR
it had. In both cases the step has used up the offer in the schedule, a field of the model's own (the model's choice,
log 3, DESIGN CHOICE). The bound 0xFFE is the spec's decision D1. -/
def Obligations.ErrorsAreExact : Prop :=
  ∀ s : State, s.Running → s.pc.toNat + 2 ≤ 0xFFF → s.sp.toNat ≤ 16 →
  (∀ k, executeError (decodeWord s.fetchWord) s.started = some k → step s = .next (s.started.haltedWith k)) ∧
  (executeError (decodeWord s.fetchWord) s.started = none →
    ∃ t, step s = .next t ∧ t.phase ≠ .halted ∧ t.err = s.err)

/-- How each instruction, an error included, leaves PC. Rests on: 10_state.md section 4 (how each instruction leaves
PC), 60_exceptions.md section 2 (PC at a halt), 92_eei_decisions.md D4 (wrap of PC), D8 (sense of the key skips), D24,
notes/assumptions/3.md (log 3), notes/assumptions/4.md (log 4). For every instruction whose execution answers a next
state, PC after it is as the spec's table says: nnn, the popped entry, v[0] + nnn, address + 4 or + 2 for the skips,
address + 2 for every other instruction and for every error of the execute phase; a fetch that raises AddressFault
leaves PC where it was; the key press that ends a wait keeps PC, and so does every step in HALTED without a reset. The
sense of the two key skips and the wrap of PC at 65536 are the spec's decisions D8 and D4; that events are taken from
a schedule and that a halted machine's step answers its own state is the model's choice (log 3 and log 4, DESIGN
CHOICE). -/
def Obligations.PcTable : Prop :=
  (∀ (i : Instr) (s t : State), exec i s = .next t → t.pc = pcAfter i s) ∧
  (∀ s t : State, s.Running → s.pc.toNat + 2 > 0xFFF → step s = .next t → t.pc = s.pc ∧ t.err = some .addressFault) ∧
  (∀ (s t : State) (x : Reg) (key : BitVec 4), s.phase = .waitKey x → s.schedule.head? = some (.keyPress key) →
    step s = .next t → t.pc = s.pc ∧ t.phase = .run) ∧
  (∀ s t : State, s.phase = .halted → (∀ image, s.schedule.head? ≠ some (.reset image)) → step s = .next t → t.pc = s.pc)

/-- Only the six flag writers and a destination of 15 change v[15], and a flag written is 0 or 1. Rests on:
10_state.md section 2 (the flag), 42_alu.md, 44_display.md, collision flag, 92_eei_decisions.md D10, D13. An
instruction that is no flag writer and does not name register 15 as destination leaves v[15]; the five ALU flag
writers, with another destination, leave 0 or 1 in it; DRW leaves 0 or 1, or, when it halts, v[15] as it was. That DRW
writes the flag is the spec's decision D13. -/
def Obligations.FlagWriters : Prop :=
  ∀ (i : Instr) (s t : State), exec i s = .next t →
  (flagWriter i = none → writesReg i VF = false → t.reg VF = s.reg VF) ∧
  (∀ x, flagWriter i = some (some x) → x ≠ VF → t.reg VF = 0x00#8 ∨ t.reg VF = 0x01#8) ∧
  (flagWriter i = some none →
    t.reg VF = 0x00#8 ∨ t.reg VF = 0x01#8 ∨ (t.phase = .halted ∧ t.reg VF = s.reg VF))

/-- A register outside an instruction's read set cannot influence it, outside its write set it is kept. Rests on:
10_state.md section 1 (which instructions read and write which registers), 92_eei_decisions.md D10, D11, D13. For
every instruction and every register it does not read: if it does not write it either, changing that register before
is the same as changing it after; if it writes it and does not halt, changing it before makes no difference at all.
The sets are the spec's table; the register Fx0A writes is written by the key press and not by the execute phase. -/
def Obligations.RegisterReadsAndWrites : Prop :=
  ∀ (i : Instr) (s : State) (k : Reg) (b : Byte), readsReg i k = false →
  (writesReg i k = false → exec i (s.setReg k b) = onNext (fun t => t.setReg k b) (exec i s)) ∧
  (writesReg i k = true → s.phase = .run → ∀ t, exec i s = .next t → t.phase ≠ .halted →
    exec i (s.setReg k b) = .next t)

/-- I, the timers, SP, the stack, the framebuffer, memory, events and answers change only under the instructions named
for them. Rests on: 10_state.md sections 3, 5, 6, 7 and 9, 20_memory.md section 5 (access table), 92_eei_decisions.md
D33, notes/assumptions/1.md (log 1), notes/assumptions/3.md (log 3), notes/assumptions/14.md (log 14),
notes/assumptions/22.md (log 22). If an executed instruction answers a next state in which I differs it was Annn, Fx1E
or Fx29; DT: Fx15; ST: Fx18; SP: 00EE or 2nnn; the stack: 2nnn; the framebuffer or the event stream: 00E0 or Dxyn;
memory: Fx33 or Fx55; the count of answers used: Cxnn, Ex9E or ExA1; and no instruction touches the schedule. The
count of answers and the schedule are fields of the model's own (log 1 and log 3, DESIGN CHOICE) and no state of the
core. Memory is compared as the model's list and the event stream as the list kept since reset (log 22 and log 14,
DESIGN CHOICE). -/
def Obligations.OnlyNamedInstructionsWrite : Prop :=
  ∀ (i : Instr) (s t : State), exec i s = .next t →
  (t.i ≠ s.i → (∃ nnn, i = .ldI nnn) ∨ (∃ x, i = .addI x) ∨ ∃ x, i = .ldF x) ∧
  (t.dt ≠ s.dt → ∃ x, i = .ldDTVx x) ∧ (t.st ≠ s.st → ∃ x, i = .ldSTVx x) ∧
  (t.sp ≠ s.sp → i = .ret ∨ ∃ nnn, i = .call nnn) ∧ (t.stack ≠ s.stack → ∃ nnn, i = .call nnn) ∧
  (t.fb ≠ s.fb → i = .cls ∨ ∃ x y n, i = .drw x y n) ∧ (t.events ≠ s.events → i = .cls ∨ ∃ x y n, i = .drw x y n) ∧
  (t.mem ≠ s.mem → (∃ x, i = .ldB x) ∨ ∃ x, i = .ldMemVx x) ∧
  (t.answers ≠ s.answers → (∃ x nn, i = .rnd x nn) ∨ (∃ x, i = .skp x) ∨ ∃ x, i = .sknp x) ∧
  t.schedule = s.schedule

/-- RET pops the return address, or raises StackUnderflow when the stack is empty. Rests on: R100. With SP = 0 RET
halts with StackUnderflow and changes nothing else; with SP from 1 to 16 it takes 1 from SP and sets PC to the entry
at the new SP, which keeps its value; every other register, byte and entry is unchanged. Its word is 0x00EE. -/
def Obligations.ReturnPopsOrUnderflows : Prop :=
  decodeWord 0x00EE#16 = .ret ∧ ∀ s : State,
  (s.sp.toNat = 0 → ∃ t, exec .ret s = .next t ∧ t.phase = .halted ∧ t.err = some .stackUnderflow ∧
    Keeps { halts := true } s t) ∧
  (0 < s.sp.toNat → s.sp.toNat ≤ 16 → ∃ t, exec .ret s = .next t ∧ t.sp.toNat = s.sp.toNat - 1 ∧
    s.stack[s.sp.toNat - 1]? = some t.pc ∧ Keeps { sp := true, pc := true } s t)

/-- JP sets PC to nnn, JP V0 to v[0] + nnn with no reduction, and both change PC only. Rests on: R101, R107. JP nnn
completes in every state with PC = nnn; JP V0, nnn completes with PC = v[0] + nnn as natural numbers, up to 0x10FE,
not reduced modulo 4096; nothing but PC changes. Their words are 1nnn and Bnnn. -/
def Obligations.JumpsSetPc : Prop :=
  ∀ (nnn : Imm12) (s : State),
  (decodeWord (0x1#4 ++ nnn) = .jp nnn ∧ decodeWord (0xB#4 ++ nnn) = .jpV0 nnn) ∧
  (∃ t, exec (.jp nnn) s = .next t ∧ t.pc.toNat = nnn.toNat ∧ Keeps { pc := true } s t) ∧
  (∃ t, exec (.jpV0 nnn) s = .next t ∧ t.pc.toNat = (s.reg 0x0#4).toNat + nnn.toNat ∧ Keeps { pc := true } s t)

/-- CALL pushes the advanced PC and jumps, or raises StackOverflow when the stack is full. Rests on: R102. With SP
below 16 CALL stores PC (the address of the instruction after the call) in stack[SP], adds 1 to SP and sets PC to nnn,
all other entries and state unchanged; with SP at 16 (or above, which no run reaches) it halts with StackOverflow and
changes nothing else. Its word is 2nnn. -/
def Obligations.CallPushesOrOverflows : Prop :=
  ∀ (nnn : Imm12) (s : State),
  decodeWord (0x2#4 ++ nnn) = .call nnn ∧
  (s.sp.toNat < 16 → ∃ t, exec (.call nnn) s = .next t ∧ t.stack[s.sp.toNat]? = some s.pc ∧
    t.sp.toNat = s.sp.toNat + 1 ∧ t.pc.toNat = nnn.toNat ∧
    Keeps { entries := [s.sp.toNat], sp := true, pc := true } s t) ∧
  (16 ≤ s.sp.toNat → ∃ t, exec (.call nnn) s = .next t ∧ t.phase = .halted ∧ t.err = some .stackOverflow ∧
    Keeps { halts := true } s t)

/-- CALL then RET restores PC; 16 nested calls succeed and the 17th fails; RET on an empty stack fails. Rests on:
R216. From SP below 16 a call followed at once by a return gives back the PC and the SP of before; from SP = 0 any 16
calls in a row complete with SP = 16, and a 17th halts with StackOverflow, SP still 16 and all entries intact; a
return at SP = 0 halts with StackUnderflow, SP still 0; and no step at all takes SP out of 0 to 16. -/
def Obligations.SixteenCallsNest : Prop :=
  (∀ (nnn : Imm12) (s : State), s.sp.toNat < 16 →
    ∃ t u, exec (.call nnn) s = .next t ∧ exec .ret t = .next u ∧ u.pc = s.pc ∧ u.sp = s.sp) ∧
  (∀ (targets : List Imm12) (s : State), s.sp.toNat = 0 → targets.length = 16 →
    ∃ t, nestedCalls targets s = .next t ∧ t.sp.toNat = 16 ∧
      ∀ nnn, ∃ u, exec (.call nnn) t = .next u ∧ u.err = some .stackOverflow ∧ u.phase = .halted ∧
        u.sp.toNat = 16 ∧ u.stack = t.stack) ∧
  (∀ s : State, s.sp.toNat = 0 →
    ∃ t, exec .ret s = .next t ∧ t.err = some .stackUnderflow ∧ t.phase = .halted ∧ t.sp.toNat = 0) ∧
  (∀ s t : State, s.sp.toNat ≤ 16 → step s = .next t → t.sp.toNat ≤ 16)

/-- SE Vx, nn skips 2 bytes when v[x] = nn, SNE Vx, nn when it is not, and only PC changes. Rests on: R103, R104,
92_eei_decisions.md D4 (wrap of PC). Both complete in every state: PC is 2 more (mod 65536) when the condition on v[x]
and nn holds and as it was otherwise; nothing else changes, the flag included. That PC wraps at 65536, where no run
comes, is the spec's decision D4. -/
def Obligations.SkipsOnImmediate : Prop :=
  ∀ (x : Reg) (nn : Imm8) (s : State),
  (∃ t, exec (.seImm x nn) s = .next t ∧ Keeps { pc := true } s t ∧
    t.pc.toNat = if (s.reg x).toNat = nn.toNat then (s.pc.toNat + 2) % 65536 else s.pc.toNat) ∧
  (∃ t, exec (.sneImm x nn) s = .next t ∧ Keeps { pc := true } s t ∧
    t.pc.toNat = if (s.reg x).toNat = nn.toNat then s.pc.toNat else (s.pc.toNat + 2) % 65536)

/-- SE Vx, Vy skips when the registers are equal, SNE Vx, Vy when they differ, and only PC changes. Rests on:
41_control_transfer.md (SE Vx, Vy and SNE Vx, Vy), 92_eei_decisions.md D4 (wrap of PC), D12. Both complete in every
state and for every pair of registers, the same one included: PC is 2 more (mod 65536) when the condition holds and as
it was otherwise; nothing else changes. The encodings with n not 0 are another statement's; the wrap of PC at 65536 is
the spec's decision D4. -/
def Obligations.SkipsOnRegister : Prop :=
  ∀ (x y : Reg) (s : State),
  (∃ t, exec (.seReg x y) s = .next t ∧ Keeps { pc := true } s t ∧
    t.pc.toNat = if (s.reg x).toNat = (s.reg y).toNat then (s.pc.toNat + 2) % 65536 else s.pc.toNat) ∧
  (∃ t, exec (.sneReg x y) s = .next t ∧ Keeps { pc := true } s t ∧
    t.pc.toNat = if (s.reg x).toNat = (s.reg y).toNat then s.pc.toNat else (s.pc.toNat + 2) % 65536)

/-- LD Vx, nn and ADD Vx, nn (wrapping, no flag) write v[x] only. Rests on: R120, R121. Both complete in every state:
v[x] becomes nn, or (v[x] + nn) mod 256; every other register, v[15] included unless it is the destination, and
everything else is unchanged. Their words are 6xnn and 7xnn. -/
def Obligations.LoadsAndAddImmediate : Prop :=
  ∀ (x : Reg) (nn : Imm8) (s : State),
  (decodeWord (0x6#4 ++ x ++ nn) = .ldImm x nn ∧ decodeWord (0x7#4 ++ x ++ nn) = .addImm x nn) ∧
  (∃ t, exec (.ldImm x nn) s = .next t ∧ t.reg x = nn ∧ Keeps { regs := [x] } s t) ∧
  (∃ t, exec (.addImm x nn) s = .next t ∧ (t.reg x).toNat = ((s.reg x).toNat + nn.toNat) % 256 ∧
    Keeps { regs := [x] } s t)

/-- LD Vx, Vy copies v[y], and OR, AND and XOR combine v[x] and v[y] bit by bit, into v[x]; none writes a flag. Rests
on: 42_alu.md (LD Vx, Vy, OR, AND, XOR), 92_eei_decisions.md D10. The four complete in every state: v[x] becomes v[y],
or each bit of the new v[x] is the OR, AND or XOR of that bit of v[x] and v[y]; nothing but v[x] changes. That OR, AND
and XOR do not write v[15] is the spec's decision D10. -/
def Obligations.CopyAndBitwiseOperations : Prop :=
  ∀ (x y : Reg) (s : State),
  (∃ t, exec (.ldReg x y) s = .next t ∧ t.reg x = s.reg y ∧ Keeps { regs := [x] } s t) ∧
  (∃ t, exec (.orReg x y) s = .next t ∧ Keeps { regs := [x] } s t ∧
    ∀ b, (t.reg x).getLsbD b = ((s.reg x).getLsbD b || (s.reg y).getLsbD b)) ∧
  (∃ t, exec (.andReg x y) s = .next t ∧ Keeps { regs := [x] } s t ∧
    ∀ b, (t.reg x).getLsbD b = ((s.reg x).getLsbD b && (s.reg y).getLsbD b)) ∧
  (∃ t, exec (.xorReg x y) s = .next t ∧ Keeps { regs := [x] } s t ∧
    ∀ b, (t.reg x).getLsbD b = ((s.reg x).getLsbD b != (s.reg y).getLsbD b))

/-- ADD Vx, Vy: v[x] is the low byte of the sum and v[15] its carry, unless x is 15. Rests on: R126,
92_eei_decisions.md D10 (x = 15). ADD completes in every state: v[x] ends as (v[x] + v[y]) mod 256 of the values
before; when x is not 15, v[15] is 1 if the sum exceeds 255 and 0 otherwise; when x is 15 the sum wins over the carry
(the spec's decision D10). Nothing but v[x] and v[15] changes. -/
def Obligations.AddWithCarryOut : Prop :=
  ∀ (x y : Reg) (s : State), ∃ t, exec (.addReg x y) s = .next t ∧
  (t.reg x).toNat = ((s.reg x).toNat + (s.reg y).toNat) % 256 ∧
  (x ≠ VF → (t.reg VF).toNat = if (s.reg x).toNat + (s.reg y).toNat > 255 then 1 else 0) ∧
  Keeps { regs := [VF, x] } s t

/-- SUB Vx, Vy: v[15] is 1 when v[x] is strictly greater, then v[x] - v[y] is formed from the registers after that
write. Rests on: R127, 92_eei_decisions.md D10 (x or y = 15). SUB completes in every state. With a = v[x], b = v[y]
before and f = 1 if a > b else 0: for x and y other than 15, v[15] = f and v[x] = (a - b) mod 256; for y = 15 alone
v[15] = f and v[x] = (a - f) mod 256; for x = 15 alone v[15] = (f - b) mod 256; for both 15 v[15] = 0. The outcomes
with 15 are the spec's decision D10. Nothing but v[x] and v[15] changes. -/
def Obligations.SubtractStrictFlag : Prop :=
  ∀ (x y : Reg) (s : State), ∃ t, exec (.sub x y) s = .next t ∧ Keeps { regs := [VF, x] } s t ∧
  ∀ a b f, (s.reg x).toNat = a → (s.reg y).toNat = b → (f = if a > b then 1 else 0) →
    (x ≠ VF → (t.reg VF).toNat = f) ∧
    (x ≠ VF → y ≠ VF → (t.reg x).toNat = (a + 256 - b) % 256) ∧
    (x ≠ VF → y = VF → (t.reg x).toNat = (a + 256 - f) % 256) ∧
    (x = VF → y ≠ VF → (t.reg VF).toNat = (f + 256 - b) % 256) ∧
    (x = VF → y = VF → (t.reg VF).toNat = 0)

/-- SUBN Vx, Vy: v[15] is 1 when v[y] is strictly greater, then v[y] - v[x] is formed from the registers after that
write. Rests on: R129, 92_eei_decisions.md D10 (x or y = 15). SUBN completes in every state. With a = v[x], b = v[y]
before and f = 1 if b > a else 0: for x and y other than 15, v[15] = f and v[x] = (b - a) mod 256; for y = 15 alone
v[15] = f and v[x] = (f - a) mod 256; for x = 15 alone v[15] = (b - f) mod 256; for both 15 v[15] = 0. The outcomes
with 15 are the spec's decision D10. Nothing but v[x] and v[15] changes. -/
def Obligations.ReverseSubtractStrictFlag : Prop :=
  ∀ (x y : Reg) (s : State), ∃ t, exec (.subn x y) s = .next t ∧ Keeps { regs := [VF, x] } s t ∧
  ∀ a b f, (s.reg x).toNat = a → (s.reg y).toNat = b → (f = if b > a then 1 else 0) →
    (x ≠ VF → (t.reg VF).toNat = f) ∧
    (x ≠ VF → y ≠ VF → (t.reg x).toNat = (b + 256 - a) % 256) ∧
    (x ≠ VF → y = VF → (t.reg x).toNat = (f + 256 - a) % 256) ∧
    (x = VF → y ≠ VF → (t.reg VF).toNat = (b + 256 - f) % 256) ∧
    (x = VF → y = VF → (t.reg VF).toNat = 0)

/-- SHR and SHL move the bit shifted out into v[15] and shift v[x] by one place, whatever y is. Rests on: R128, R130,
92_eei_decisions.md D10 (x = 15), D11 (y ignored). Both complete in every state and for every y. With a = v[x] before:
for x other than 15, SHR leaves v[x] = a div 2 and v[15] = a mod 2, SHL leaves v[x] = 2a mod 256 and v[15] = a div
128; for x = 15, SHR leaves v[15] = 0 and SHL twice its old bit 7 (the spec's decision D10). Nothing but v[x] and
v[15] changes; v[y] is not used (decision D11). -/
def Obligations.ShiftsMoveBitToFlag : Prop :=
  ∀ (x y : Reg) (s : State),
  (∃ t, exec (.shr x y) s = .next t ∧ Keeps { regs := [VF, x] } s t ∧
    (x ≠ VF → (t.reg x).toNat = (s.reg x).toNat / 2 ∧ (t.reg VF).toNat = (s.reg x).toNat % 2) ∧
    (x = VF → (t.reg VF).toNat = 0)) ∧
  (∃ t, exec (.shl x y) s = .next t ∧ Keeps { regs := [VF, x] } s t ∧
    (x ≠ VF → (t.reg x).toNat = (2 * (s.reg x).toNat) % 256 ∧ (t.reg VF).toNat = (s.reg x).toNat / 128) ∧
    (x = VF → (t.reg VF).toNat = 2 * ((s.reg x).toNat / 128)))

/-- LD I, nnn sets I to nnn; LD F, Vx sets I to 5 * v[x], or raises InvalidDigit for v[x] of 16 or more. Rests on:
R140, R142. LD I completes in every state with I = nnn. LD F with v[x] below 16 completes with I = 5 * v[x]; with v[x]
of 16 or more, the whole byte tested, it halts with InvalidDigit and changes nothing else. Nothing but I changes where
they complete. Their words are Annn and Fx29. -/
def Obligations.LoadIndexAndDigitAddress : Prop :=
  ∀ (x : Reg) (nnn : Imm12) (s : State),
  (decodeWord (0xA#4 ++ nnn) = .ldI nnn ∧ decodeWord (0xF#4 ++ x ++ 0x29#8) = .ldF x) ∧
  (∃ t, exec (.ldI nnn) s = .next t ∧ t.i.toNat = nnn.toNat ∧ Keeps { i := true } s t) ∧
  ((s.reg x).toNat < 16 → ∃ t, exec (.ldF x) s = .next t ∧ t.i.toNat = (s.reg x).toNat * 5 ∧
    Keeps { i := true } s t) ∧
  (16 ≤ (s.reg x).toNat → ∃ t, exec (.ldF x) s = .next t ∧ t.phase = .halted ∧ t.err = some .invalidDigit ∧
    Keeps { halts := true } s t)

/-- ADD I, Vx adds v[x] to I modulo 65536 and changes nothing else, v[15] included. Rests on: 43_index_memory.md (ADD
I, Vx), 92_eei_decisions.md D3. ADD I completes in every state: I becomes (I + v[x]) mod 65536. That it wraps at 65536
with no flag is the spec's decision D3. -/
def Obligations.AddIndexWraps : Prop :=
  ∀ (x : Reg) (s : State), ∃ t, exec (.addI x) s = .next t ∧
  t.i.toNat = (s.i.toNat + (s.reg x).toNat) % 65536 ∧ Keeps { i := true } s t

/-- LD B, Vx stores the three decimal digits of v[x] at I, I+1, I+2, or raises AddressFault. Rests on: R143,
92_eei_decisions.md D1 (MEM_LAST), D2 (no wrap), D33 (I kept). When I + 2, formed without wrap, is at most MEM_LAST,
LD B completes with the hundreds, tens and ones digit of v[x] in the bytes at I, I+1 and I+2, every other byte, I,
every register and everything else unchanged; otherwise it halts with AddressFault and changes nothing else, no byte
included. The bound and its formation without wrap are the spec's decisions D1 and D2, that I is kept is D33. -/
def Obligations.StoresDecimalDigits : Prop :=
  ∀ (x : Reg) (s : State),
  (s.i.toNat + 2 ≤ memLast → ∃ t, exec (.ldB x) s = .next t ∧
    (t.mem.read (s.baseOffset 0)).toNat = (s.reg x).toNat / 100 ∧
    (t.mem.read (s.baseOffset 1)).toNat = (s.reg x).toNat / 10 % 10 ∧
    (t.mem.read (s.baseOffset 2)).toNat = (s.reg x).toNat % 10 ∧
    Keeps { bytes := [s.baseOffset 0, s.baseOffset 1, s.baseOffset 2] } s t) ∧
  (s.i.toNat + 2 > memLast → ∃ t, exec (.ldB x) s = .next t ∧ t.phase = .halted ∧ t.err = some .addressFault ∧
    Keeps { halts := true } s t)

/-- LD [I], Vx stores v[0] to v[x] from I on, or raises AddressFault, and leaves I. Rests on: R144,
92_eei_decisions.md D1 (MEM_LAST), D2 (no wrap), D33 (I kept). When I + x, formed without wrap, is at most MEM_LAST,
LD [I], Vx completes with v[k] in the byte at I + k for every k from 0 to x, every other byte, I, every register and
everything else unchanged; otherwise it halts with AddressFault and changes nothing else, no byte included. The bound
and its formation without wrap are the spec's decisions D1 and D2, that I is kept is D33. -/
def Obligations.StoresRegisterBlock : Prop :=
  ∀ (x : Reg) (s : State),
  (s.i.toNat + x.toNat ≤ memLast → ∃ t, exec (.ldMemVx x) s = .next t ∧
    (∀ k : Reg, k.toNat ≤ x.toNat → t.mem.read (s.baseOffset k.toNat) = s.reg k) ∧
    Keeps { bytes := (List.range (x.toNat + 1)).map s.baseOffset } s t) ∧
  (s.i.toNat + x.toNat > memLast → ∃ t, exec (.ldMemVx x) s = .next t ∧ t.phase = .halted ∧
    t.err = some .addressFault ∧ Keeps { halts := true } s t)

/-- LD Vx, [I] loads v[0] to v[x] from I on, or raises AddressFault, and leaves I and memory. Rests on: R145,
92_eei_decisions.md D1 (MEM_LAST), D2 (no wrap), D33 (I kept). When I + x, formed without wrap, is at most MEM_LAST,
LD Vx, [I] completes with the byte at I + k in v[k] for every k from 0 to x, the registers above x, I, every byte of
memory and everything else unchanged; otherwise it halts with AddressFault and changes nothing else, no register
included. And after LD [I], Vx, LD Vx, [I] on any registers with the same I and memory brings the stored values back.
The bound and its formation without wrap are the spec's decisions D1 and D2, that I is kept is D33. -/
def Obligations.LoadsRegisterBlock : Prop :=
  ∀ (x : Reg) (s : State),
  (s.i.toNat + x.toNat ≤ memLast → ∃ t, exec (.ldVxMem x) s = .next t ∧
    (∀ k : Reg, k.toNat ≤ x.toNat → t.reg k = s.mem.read (s.baseOffset k.toNat)) ∧
    Keeps { regs := (List.range (x.toNat + 1)).map regOfIndex } s t) ∧
  (s.i.toNat + x.toNat > memLast → ∃ t, exec (.ldVxMem x) s = .next t ∧ t.phase = .halted ∧
    t.err = some .addressFault ∧ Keeps { halts := true } s t) ∧
  (s.i.toNat + x.toNat ≤ memLast → ∃ t, exec (.ldMemVx x) s = .next t ∧
    ∀ u : State, u.i = s.i → u.mem = t.mem →
      ∃ w, exec (.ldVxMem x) u = .next w ∧ ∀ k : Reg, k.toNat ≤ x.toNat → w.reg k = s.reg k)

/-- Bytes that Fx55 stores at the next instruction's address are what the very next step runs. Rests on: 20_memory.md
sections 6 and 7 (ordering, instruction-fetch coherence), 95_test_vectors.md program P5, 92_eei_decisions.md D1,
notes/assumptions/3.md (log 3). If I is the address of the next instruction, x is at least 1 and the block is in
bounds, then after LD [I], Vx the next instruction step in RUN runs the instruction of the word whose high byte is
v[0] and low byte v[1]. The bound 0xFFE is the spec's decision D1; that the step also uses up the offer in the
schedule is the model's choice (log 3, DESIGN CHOICE). -/
def Obligations.StoresReachTheNextFetch : Prop :=
  ∀ (x : Reg) (s : State), s.Running → 1 ≤ x.toNat → s.i = s.pc → s.pc.toNat + 2 ≤ 0xFFF →
  s.i.toNat + x.toNat ≤ 0xFFE → ∃ t, exec (.ldMemVx x) s = .next t ∧
    step t = exec (decodeWord (wordOfBytes (s.reg 0x0#4) (s.reg 0x1#4))) t.started

/-- CLS zeroes every framebuffer row, emits one Clear event and changes nothing else. Rests on: R160,
92_eei_decisions.md D16 (the event), notes/assumptions/14.md (log 14). CLS completes in every state: all 32 rows are 0
and one Clear event is appended to the stream, also when the framebuffer was zero already (the spec's decision D16);
v[15] and everything else is unchanged. That events are appended to a list that State keeps is the model's choice of
form (log 14, DESIGN CHOICE). -/
def Obligations.ClearScreenClears : Prop :=
  ∀ s : State, ∃ t, exec .cls s = .next t ∧ (∀ r : Fin 32, t.fb[r] = 0#64) ∧ t.events = s.events ++ [.clear] ∧
  Keeps { fb := true, events := true } s t

/-- DRW XORs the placed sprite rows into the drawn rows, sets the collision flag and emits the new rows. Rests on:
44_display.md (DRW: rows, collision flag, event, corner cases), 92_eei_decisions.md D1, D13, D14, D15, D16,
notes/assumptions/14.md (log 14). Let cnt rows be drawn, min(n, 32 - v[y]) or none. When cnt is 0 (whatever I is) or
the last sprite byte is at most 0xFFE (D1), DRW completes: row k is XORed with the placed byte at I + k - v[y] for
v[y] <= k < v[y] + cnt and kept otherwise; v[15] is 1 if a set pixel was turned off and 0 if not (decision D13); with
cnt > 0 one event lists the drawn rows in order with their new values, with cnt = 0 none (D16). Otherwise it halts
with AddressFault and changes nothing else (D14). That events are appended to a list that State keeps is the model's
choice of form (log 14, DESIGN CHOICE). -/
def Obligations.DrawXorsRows : Prop :=
  ∀ (x y : Reg) (n : Imm4) (s : State),
  (rowsDrawn s y n = 0 ∨ s.i.toNat + rowsDrawn s y n - 1 ≤ 0xFFE → ∃ t, exec (.drw x y n) s = .next t ∧
    (∀ k : Fin 32, t.fb[k] =
      if (s.reg y).toNat ≤ k.val ∧ k.val < (s.reg y).toNat + rowsDrawn s y n
      then s.fb[k] ^^^ spriteRow s (s.reg x) (s.reg y).toNat k.val else s.fb[k]) ∧
    ((∃ k : Fin 32, ((s.reg y).toNat ≤ k.val ∧ k.val < (s.reg y).toNat + rowsDrawn s y n) ∧
        s.fb[k] &&& spriteRow s (s.reg x) (s.reg y).toNat k.val ≠ 0#64) → t.reg VF = 0x01#8) ∧
    ((∀ k : Fin 32, ((s.reg y).toNat ≤ k.val ∧ k.val < (s.reg y).toNat + rowsDrawn s y n) →
        s.fb[k] &&& spriteRow s (s.reg x) (s.reg y).toNat k.val = 0#64) → t.reg VF = 0x00#8) ∧
    (rowsDrawn s y n = 0 → t.events = s.events) ∧
    (0 < rowsDrawn s y n → ∃ rows, t.events = s.events ++ [.regionUpdated rows] ∧
      rows.map (fun u => (u.1.val, some u.2)) =
        (List.range (rowsDrawn s y n)).map fun r => ((s.reg y).toNat + r, t.fb[(s.reg y).toNat + r]?)) ∧
    Keeps { regs := [VF], fb := true, events := true } s t) ∧
  (0 < rowsDrawn s y n → s.i.toNat + rowsDrawn s y n - 1 > 0xFFE → ∃ t, exec (.drw x y n) s = .next t ∧
    t.phase = .halted ∧ t.err = some .addressFault ∧ Keeps { halts := true } s t)

/-- Bit k of a sprite byte lands at bit h + k of the row, and bits beyond 63 are lost, all of them for h of 64 or
more. Rests on: 44_display.md (placement of a sprite row), 90_conflicts.md C2, 92_eei_decisions.md D15. For every
sprite byte and every horizontal operand used whole: bit b of the placed row is bit b - h of the byte when b is at
least h, and 0 otherwise. That no bit survives for h of 64 or more is the spec's decision D15. -/
def Obligations.PlacePutsBits : Prop :=
  ∀ (sprite h : Byte) (b : Nat), b < 64 →
  (place sprite h).getLsbD b = (decide (h.toNat ≤ b) && sprite.getLsbD (b - h.toNat))

/-- Drawing the same sprite twice at the same place restores the framebuffer. Rests on: 44_display.md (DRW, collision
flag, corner cases: R161, R163, R165), 92_eei_decisions.md D1, D13, notes/assumptions/20.md (log 20). For x and y
other than 15, when the draw is in bounds, two DRW in a row leave the framebuffer as it was, and the second sets v[15]
to 1 when some placed sprite bit fell on a pixel that was off before the first. The spec's corner case R165(g) says
'any 1 bit that was placed'; the limit to pixels that were off is the model's deduction from R161 and R163 (log 20,
DEDUCED), and on a cleared screen the two agree. The bound 0xFFE is the spec's decision D1, that DRW writes the flag
is D13. With x or y = 15 the first draw's flag moves the second (R163), so these forms are left to the statement on a
single DRW. -/
def Obligations.DrawTwiceRestores : Prop :=
  ∀ (x y : Reg) (n : Imm4) (s : State), x ≠ VF → y ≠ VF →
  (rowsDrawn s y n = 0 ∨ s.i.toNat + rowsDrawn s y n - 1 ≤ 0xFFE) →
  ∃ t u, exec (.drw x y n) s = .next t ∧ exec (.drw x y n) t = .next u ∧ u.fb = s.fb ∧
    ((∃ k : Fin 32, ((s.reg y).toNat ≤ k.val ∧ k.val < (s.reg y).toNat + rowsDrawn s y n) ∧
        spriteRow s (s.reg x) (s.reg y).toNat k.val &&& ~~~ s.fb[k] ≠ 0#64) → u.reg VF = 0x01#8)

/-- RND Vx, nn writes the environment's byte ANDed with nn to v[x], one draw per execution. Rests on:
45_input_random_timers.md (draw_byte, R170; RND, R171), notes/assumptions/1.md (log 1). RND completes in every state:
v[x] is the drawn byte AND nn, so every bit that is 0 in nn is 0 in it; the count of answers used, a counter of the
model's own, is 1 more, and nothing else changes. That the byte is a free value applied to that counter is the model's
choice of form (log 1, DESIGN CHOICE): the statement holds for every value of the byte. Its word is Cxnn. -/
def Obligations.RandomUnderMask : Prop :=
  ∀ (x : Reg) (nn : Imm8) (s : State), decodeWord (0xC#4 ++ x ++ nn) = .rnd x nn ∧
  ∃ t, exec (.rnd x nn) s = .next t ∧
  (∀ k, (t.reg x).getLsbD k = ((Config.drawByte s.answers).getLsbD k && nn.getLsbD k)) ∧
  t.answers = s.answers + 1 ∧ Keeps { regs := [x], answers := true } s t

/-- SKP skips when the environment says key v[x] is down, SKNP when it says it is not, and neither waits. Rests on:
45_input_random_timers.md (key_down, SKP, SKNP), 92_eei_decisions.md D8 (sense of the skips), D17,
notes/assumptions/1.md (log 1), notes/assumptions/2.md (log 2). Both complete in every state and for every value of
v[x], 16 to 255 included: asked with the whole byte v[x], the answer decides whether PC is 2 more (mod 65536) or as it
was; the count of answers used, a counter of the model's own (log 1, DESIGN CHOICE), is 1 more, and nothing else
changes. That the answer is a free value applied to that counter is the model's choice of form (log 2, DESIGN CHOICE);
the sense of the two skips is the spec's decision D8. -/
def Obligations.KeySkips : Prop :=
  ∀ (x : Reg) (s : State),
  (∃ t, exec (.skp x) s = .next t ∧ t.answers = s.answers + 1 ∧ Keeps { pc := true, answers := true } s t ∧
    (Config.keyDown s.answers (s.reg x) = true → t.pc.toNat = (s.pc.toNat + 2) % 65536) ∧
    (Config.keyDown s.answers (s.reg x) = false → t.pc = s.pc)) ∧
  (∃ t, exec (.sknp x) s = .next t ∧ t.answers = s.answers + 1 ∧ Keeps { pc := true, answers := true } s t ∧
    (Config.keyDown s.answers (s.reg x) = false → t.pc.toNat = (s.pc.toNat + 2) % 65536) ∧
    (Config.keyDown s.answers (s.reg x) = true → t.pc = s.pc))

/-- LD Vx, K waits in WAIT_KEY(x), and the key press that is delivered then writes its index to v[x] and resumes.
Rests on: 45_input_random_timers.md (LD Vx, K), 92_eei_decisions.md D18, D29, notes/assumptions/3.md (log 3). LD Vx, K
completes its execute phase in every state with PHASE = WAIT_KEY(x) and nothing else changed; from there, when a key
press is the next event, the step writes the index 0 to 15 to v[x], returns to RUN and changes nothing else of the
spec's state; the offered press is used up in the schedule, a field of the model's own (the model's choice, log 3,
DESIGN CHOICE). No pending-key latch and the free order of events are the spec's decision D18. -/
def Obligations.WaitForKeyTakesNextPress : Prop :=
  ∀ (x : Reg) (s : State), ∃ t, exec (.ldVxK x) s = .next t ∧ t.phase = .waitKey x ∧ Keeps { waits := true } s t ∧
  ∀ (key : BitVec 4) (rest : List Move), ∃ u, step { t with schedule := .keyPress key :: rest } = .next u ∧
    (u.reg x).toNat = key.toNat ∧ u.phase = .run ∧ u.schedule = rest ∧
    Keeps { regs := [x], waits := true, schedule := true } t u

/-- LD DT, Vx and LD ST, Vx copy v[x] into the timer and change nothing else, and no instruction reads ST back. Rests
on: R177, R179. Both complete in every state: DT, or ST, becomes v[x]; the other timer, every register and everything
else is unchanged. Their words are Fx15 and Fx18. Changing ST before any instruction but LD ST, Vx is the same as
changing it after, and before LD ST, Vx it makes no difference. -/
def Obligations.TimerWrites : Prop :=
  (∀ x : Reg, decodeWord (0xF#4 ++ x ++ 0x15#8) = .ldDTVx x ∧ decodeWord (0xF#4 ++ x ++ 0x18#8) = .ldSTVx x) ∧
  (∀ (i : Instr) (s : State) (b : Byte), (∀ x, i ≠ .ldSTVx x) →
    exec i (s.setSt b) = onNext (fun t => t.setSt b) (exec i s)) ∧
  (∀ (x : Reg) (s : State) (b : Byte), exec (.ldSTVx x) (s.setSt b) = exec (.ldSTVx x) s) ∧
  ∀ (x : Reg) (s : State),
  (∃ t, exec (.ldDTVx x) s = .next t ∧ t.dt = s.reg x ∧ Keeps { dt := true } s t) ∧
  (∃ t, exec (.ldSTVx x) s = .next t ∧ t.st = s.reg x ∧ Keeps { st := true } s t)

/-- LD Vx, DT copies the delay timer into v[x] and changes nothing else; its sub-code (the field nn of its word) is
0x06. Rests on: 45_input_random_timers.md (LD Vx, DT), 92_eei_decisions.md D9 (the sub-code 0x06). LD Vx, DT completes
in every state: v[x] becomes DT, which stays; no other register and nothing else changes. The field nn of the word
that encodes it is 0x06, as the source prints the sub-code (the spec's decision D9); the word's other fields are the
statements' on encoding and decoding (O1, O2). -/
def Obligations.ReadsDelayTimer : Prop :=
  (∀ (x : Reg) (s : State), ∃ t, exec (.ldVxDT x) s = .next t ∧ t.reg x = s.dt ∧ Keeps { regs := [x] } s t) ∧
  (∀ x : Reg, nnField (encodeWord (.ldVxDT x)) = 0x06#8)
end

