-- ==== Sys2Proof/Laws/Memory.lean ====
section
/-! SUPPORT. The laws of memory: what a read gives after a write, that every operation keeps the canonical form, and
that canonical memories which read the same are the same data. -/

namespace Sys2Proof.Machine

theorem Memory.read_without (m : Memory) (a b : Nat) :
    (m.without a).read b = if b = a then Memory.unlisted b else m.read b := by
  induction m with
  | nil => simp [Memory.without, Memory.read]
  | cons cell rest ih =>
    obtain ⟨c, value⟩ := cell
    simp only [Memory.without] at ih ⊢
    by_cases hc : c = a
    · subst hc
      simp only [List.filter_cons, bne_self_eq_false, Bool.false_eq_true, if_false, ih, Memory.read]
      by_cases hb : b = c <;> simp [hb, eq_comm]
    · simp only [List.filter_cons, bne_iff_ne, ne_eq, hc, not_false_eq_true, if_true, Memory.read, ih]
      by_cases hb : c = b
      · subst hb; simp [hc]
      · simp [hb]

theorem Memory.read_insert (m : Memory) (a b : Nat) (value : Byte) (fresh : ∀ cell ∈ m, cell.1 ≠ a) :
    (Memory.insert m a value).read b = if b = a then value else m.read b := by
  induction m with
  | nil => simp [Memory.insert, Memory.read, eq_comm]
  | cons cell rest ih =>
    obtain ⟨c, w⟩ := cell
    have hca : c ≠ a := fresh (c, w) (by simp)
    have ih := ih fun cell hcell => fresh cell (by simp [hcell])
    simp only [Memory.insert]
    split
    · simp [Memory.read, eq_comm]
    · simp only [Memory.read, ih]
      by_cases hb : c = b
      · subst hb; simp [hca]
      · simp [hb]

theorem Memory.mem_without {m : Memory} {a : Nat} {cell : Host.Cell} :
    cell ∈ m.without a ↔ cell ∈ m ∧ cell.1 ≠ a := by
  simp [Memory.without]

/-- A read after a write. -/
theorem Memory.read_write (m : Memory) (a b : Nat) (value : Byte) :
    (m.write a value).read b = if b = a then value else m.read b := by
  unfold Memory.write
  split
  · next h => simp only [Memory.read_without]; split <;> simp_all
  · rw [Memory.read_insert _ _ _ _ fun cell h => (Memory.mem_without.mp h).2, Memory.read_without]
    split <;> simp_all

@[simp] theorem Memory.read_write_same (m : Memory) (a : Nat) (value : Byte) : (m.write a value).read a = value := by
  simp [Memory.read_write]

theorem Memory.read_write_ne (m : Memory) {a b : Nat} (h : b ≠ a) (value : Byte) :
    (m.write a value).read b = m.read b := by
  simp [Memory.read_write, h]

/-- A read after a string of bytes was stored. -/
theorem Memory.read_writeBytes (bytes : List Byte) (m : Memory) (a b : Nat) :
    (m.writeBytes a bytes).read b = if a ≤ b then (bytes[b - a]?).getD (m.read b) else m.read b := by
  induction bytes generalizing m a with
  | nil => simp [Memory.writeBytes]
  | cons value rest ih =>
    simp only [Memory.writeBytes, ih, Memory.read_write]
    rcases Nat.lt_trichotomy a b with h | h | h
    · obtain ⟨d, rfl⟩ : ∃ d, b = a + 1 + d := ⟨b - (a + 1), by omega⟩
      have h1 : a + 1 + d - a = d + 1 := by omega
      have h2 : a + 1 + d ≠ a := by omega
      simp [h1, h2, Nat.le_of_lt h]
    · subst h; simp
    · have h1 : ¬ a + 1 ≤ b := by omega
      have h2 : ¬ a ≤ b := by omega
      have h3 : b ≠ a := by omega
      simp [h1, h2, h3]

theorem Memory.mem_insert {m : Memory} {a : Nat} {value : Byte} {cell : Host.Cell} :
    cell ∈ Memory.insert m a value ↔ cell = (a, value) ∨ cell ∈ m := by
  induction m with
  | nil => simp [Memory.insert]
  | cons c rest ih =>
    simp only [Memory.insert]
    split
    · simp
    · simp only [List.mem_cons, ih]; tauto

theorem Memory.sorted_insert {m : Memory} {a : Nat} {value : Byte}
    (sorted : m.Pairwise fun c d => c.1 < d.1) (fresh : ∀ cell ∈ m, cell.1 ≠ a) :
    (Memory.insert m a value).Pairwise fun c d => c.1 < d.1 := by
  induction m with
  | nil => simp [Memory.insert]
  | cons c rest ih =>
    obtain ⟨below, sortedRest⟩ := List.pairwise_cons.mp sorted
    simp only [Memory.insert]
    split
    · next h =>
      refine List.pairwise_cons.mpr ⟨fun d hd => ?_, sorted⟩
      rcases List.mem_cons.mp hd with rfl | hd
      · exact h
      · exact Nat.lt_trans h (below d hd)
    · next h =>
      refine List.pairwise_cons.mpr ⟨fun d hd => ?_, ih sortedRest fun cell hcell => fresh cell (by simp [hcell])⟩
      rcases Memory.mem_insert.mp hd with rfl | hd
      · have := fresh c (by simp); simp only; omega
      · exact below d hd

/-- A write inside the address space keeps the canonical form. -/
theorem Memory.wf_write {m : Memory} (h : m.wf) {a : Nat} (inside : a < memSize) (value : Byte) :
    (m.write a value).wf := by
  obtain ⟨sorted, cells⟩ := h
  have sortedW : (m.without a).Pairwise fun c d => c.1 < d.1 := sorted.filter _
  unfold Memory.write
  split
  · exact ⟨sortedW, fun cell hcell => cells cell (Memory.mem_without.mp hcell).1⟩
  · next hv =>
    refine ⟨Memory.sorted_insert sortedW fun cell hcell => (Memory.mem_without.mp hcell).2, fun cell hcell => ?_⟩
    rcases Memory.mem_insert.mp hcell with rfl | hcell
    · exact ⟨hv, inside⟩
    · exact cells cell (Memory.mem_without.mp hcell).1

/-- A string of bytes stored inside the address space keeps the canonical form. -/
theorem Memory.wf_writeBytes (bytes : List Byte) {m : Memory} (h : m.wf) {a : Nat}
    (inside : a + bytes.length ≤ memSize) : (m.writeBytes a bytes).wf := by
  induction bytes generalizing m a with
  | nil => exact h
  | cons value rest ih =>
    simp only [List.length_cons] at inside
    exact ih (Memory.wf_write h (by omega) value) (by omega)

theorem Memory.wf_nil : Memory.wf [] := by simp [Memory.wf]

theorem Memory.read_of_lt_all {m : Memory} {a : Nat} (h : ∀ cell ∈ m, a < cell.1) : m.read a = Memory.unlisted a := by
  induction m with
  | nil => rfl
  | cons c rest ih =>
    have hc := h c (by simp)
    simp [Memory.read, Nat.ne_of_gt hc, ih fun cell hcell => h cell (by simp [hcell])]

/-- Canonical memories that read the same at every address are the same data. -/
theorem Memory.eq_of_read {m n : Memory} (hm : m.wf) (hn : n.wf) (same : ∀ a, m.read a = n.read a) : m = n := by
  induction m generalizing n with
  | nil =>
    cases n with
    | nil => rfl
    | cons d rest =>
      have h := same d.1
      simp only [Memory.read, if_true] at h
      exact absurd h.symm (hn.2 d (by simp)).1
  | cons c rest ih =>
    obtain ⟨belowC, sortedC⟩ := List.pairwise_cons.mp hm.1
    have listedC : Memory.read (c :: rest) c.1 = c.2 := by simp [Memory.read]
    cases n with
    | nil =>
      have h := same c.1
      rw [listedC] at h
      exact absurd h (hm.2 c (by simp)).1
    | cons d others =>
      obtain ⟨belowD, sortedD⟩ := List.pairwise_cons.mp hn.1
      have listedD : Memory.read (d :: others) d.1 = d.2 := by simp [Memory.read]
      have keys : c.1 = d.1 := by
        rcases Nat.lt_trichotomy c.1 d.1 with h | h | h
        · have low : Memory.read (d :: others) c.1 = Memory.unlisted c.1 := Memory.read_of_lt_all fun cell hcell => by
            rcases List.mem_cons.mp hcell with rfl | hcell
            · exact h
            · exact Nat.lt_trans h (belowD cell hcell)
          exact absurd ((listedC.symm.trans (same c.1)).trans low) (hm.2 c (by simp)).1
        · exact h
        · have low : Memory.read (c :: rest) d.1 = Memory.unlisted d.1 := Memory.read_of_lt_all fun cell hcell => by
            rcases List.mem_cons.mp hcell with rfl | hcell
            · exact h
            · exact Nat.lt_trans h (belowC cell hcell)
          exact absurd ((listedD.symm.trans (same d.1).symm).trans low) (hn.2 d (by simp)).1
      have values : c.2 = d.2 := by
        rw [← listedC, ← listedD, ← keys]; exact same c.1
      have heads : c = d := Prod.ext keys values
      subst heads
      have tails : rest = others := by
        refine ih ⟨sortedC, fun cell h => hm.2 cell (by simp [h])⟩
          ⟨sortedD, fun cell h => hn.2 cell (by simp [h])⟩ fun a => ?_
        by_cases ha : c.1 = a
        · subst ha; rw [Memory.read_of_lt_all belowC, Memory.read_of_lt_all belowD]
        · simpa [Memory.read, ha] using same a
      rw [tails]

/-- Writes to different bytes of a canonical memory commute. -/
theorem Memory.write_comm {m : Memory} (h : m.wf) {a b : Nat} (ha : a < memSize) (hb : b < memSize) (hab : a ≠ b)
    (value other : Byte) : (m.write a value).write b other = (m.write b other).write a value := by
  refine Memory.eq_of_read (Memory.wf_write (Memory.wf_write h ha _) hb _)
    (Memory.wf_write (Memory.wf_write h hb _) ha _) fun c => ?_
  simp only [Memory.read_write]
  split <;> split <;> simp_all

/-- The last write to a byte of a canonical memory wins. -/
theorem Memory.write_write {m : Memory} (h : m.wf) {a : Nat} (ha : a < memSize) (value other : Byte) :
    (m.write a value).write a other = m.write a other := by
  refine Memory.eq_of_read (Memory.wf_write (Memory.wf_write h ha _) ha _) (Memory.wf_write h ha _) fun c => ?_
  simp only [Memory.read_write]
  split <;> rfl

end Sys2Proof.Machine
end

