-- ==== Sys2Proof/Laws/State.lean ====
section
/-! SUPPORT. One lemma per field per update of the state, and how registers read back. -/

namespace Sys2Proof.Machine

theorem State.reg_setReg (s : State) (j k : Reg) (b : Byte) :
    (s.setReg k b).reg j = if j = k then b else s.reg j := by
  simp only [State.reg, State.setReg, Vector.getElem_set, BitVec.toNat_inj, eq_comm]

@[simp] theorem State.reg_setReg_same (s : State) (k : Reg) (b : Byte) : (s.setReg k b).reg k = b := by
  simp [State.reg_setReg]

theorem State.reg_setReg_ne (s : State) {j k : Reg} (h : j ≠ k) (b : Byte) : (s.setReg k b).reg j = s.reg j := by
  simp [State.reg_setReg, h]

/-- The later of two writes to one register counts. -/
@[simp] theorem State.setReg_setReg (s : State) (k : Reg) (b c : Byte) : (s.setReg k b).setReg k c = s.setReg k c := by
  simp [State.setReg]

/-- Writes to two registers commute. -/
theorem State.setReg_comm (s : State) {j k : Reg} (h : j ≠ k) (b c : Byte) :
    (s.setReg k b).setReg j c = (s.setReg j c).setReg k b := by
  have : k.toNat ≠ j.toNat := fun e => h (BitVec.eq_of_toNat_eq e).symm
  simp only [State.setReg, Vector.set_comm _ _ this]

/-- Register files that read the same are the same. -/
theorem State.v_eq_of_reg {s t : State} (h : ∀ k, s.reg k = t.reg k) : s.v = t.v := by
  apply Vector.ext
  intro n hn
  simpa [State.reg, Nat.mod_eq_of_lt hn] using h (BitVec.ofNat 4 n)

theorem State.setReg_v (s : State) (k : Reg) (b : Byte) : (s.setReg k b).v = s.v.set k.toNat b k.isLt := rfl
@[simp] theorem State.setReg_i (s : State) (k : Reg) (b : Byte) : (s.setReg k b).i = s.i := rfl
@[simp] theorem State.setReg_pc (s : State) (k : Reg) (b : Byte) : (s.setReg k b).pc = s.pc := rfl
@[simp] theorem State.setReg_dt (s : State) (k : Reg) (b : Byte) : (s.setReg k b).dt = s.dt := rfl
@[simp] theorem State.setReg_st (s : State) (k : Reg) (b : Byte) : (s.setReg k b).st = s.st := rfl
@[simp] theorem State.setReg_sp (s : State) (k : Reg) (b : Byte) : (s.setReg k b).sp = s.sp := rfl
@[simp] theorem State.setReg_stack (s : State) (k : Reg) (b : Byte) : (s.setReg k b).stack = s.stack := rfl
@[simp] theorem State.setReg_fb (s : State) (k : Reg) (b : Byte) : (s.setReg k b).fb = s.fb := rfl
@[simp] theorem State.setReg_phase (s : State) (k : Reg) (b : Byte) : (s.setReg k b).phase = s.phase := rfl
@[simp] theorem State.setReg_err (s : State) (k : Reg) (b : Byte) : (s.setReg k b).err = s.err := rfl
@[simp] theorem State.setReg_mem (s : State) (k : Reg) (b : Byte) : (s.setReg k b).mem = s.mem := rfl
@[simp] theorem State.setReg_events (s : State) (k : Reg) (b : Byte) : (s.setReg k b).events = s.events := rfl
@[simp] theorem State.setReg_schedule (s : State) (k : Reg) (b : Byte) : (s.setReg k b).schedule = s.schedule := rfl
@[simp] theorem State.setReg_answers (s : State) (k : Reg) (b : Byte) : (s.setReg k b).answers = s.answers := rfl

@[simp] theorem State.setI_v (s : State) (a : Addr) : (s.setI a).v = s.v := rfl
@[simp] theorem State.setI_i (s : State) (a : Addr) : (s.setI a).i = a := rfl
@[simp] theorem State.setI_pc (s : State) (a : Addr) : (s.setI a).pc = s.pc := rfl
@[simp] theorem State.setI_dt (s : State) (a : Addr) : (s.setI a).dt = s.dt := rfl
@[simp] theorem State.setI_st (s : State) (a : Addr) : (s.setI a).st = s.st := rfl
@[simp] theorem State.setI_sp (s : State) (a : Addr) : (s.setI a).sp = s.sp := rfl
@[simp] theorem State.setI_stack (s : State) (a : Addr) : (s.setI a).stack = s.stack := rfl
@[simp] theorem State.setI_fb (s : State) (a : Addr) : (s.setI a).fb = s.fb := rfl
@[simp] theorem State.setI_phase (s : State) (a : Addr) : (s.setI a).phase = s.phase := rfl
@[simp] theorem State.setI_err (s : State) (a : Addr) : (s.setI a).err = s.err := rfl
@[simp] theorem State.setI_mem (s : State) (a : Addr) : (s.setI a).mem = s.mem := rfl
@[simp] theorem State.setI_events (s : State) (a : Addr) : (s.setI a).events = s.events := rfl
@[simp] theorem State.setI_schedule (s : State) (a : Addr) : (s.setI a).schedule = s.schedule := rfl
@[simp] theorem State.setI_answers (s : State) (a : Addr) : (s.setI a).answers = s.answers := rfl
@[simp] theorem State.setI_reg (s : State) (a : Addr) (j : Reg) : (s.setI a).reg j = s.reg j := rfl

@[simp] theorem State.setPc_v (s : State) (a : Addr) : (s.setPc a).v = s.v := rfl
@[simp] theorem State.setPc_i (s : State) (a : Addr) : (s.setPc a).i = s.i := rfl
@[simp] theorem State.setPc_pc (s : State) (a : Addr) : (s.setPc a).pc = a := rfl
@[simp] theorem State.setPc_dt (s : State) (a : Addr) : (s.setPc a).dt = s.dt := rfl
@[simp] theorem State.setPc_st (s : State) (a : Addr) : (s.setPc a).st = s.st := rfl
@[simp] theorem State.setPc_sp (s : State) (a : Addr) : (s.setPc a).sp = s.sp := rfl
@[simp] theorem State.setPc_stack (s : State) (a : Addr) : (s.setPc a).stack = s.stack := rfl
@[simp] theorem State.setPc_fb (s : State) (a : Addr) : (s.setPc a).fb = s.fb := rfl
@[simp] theorem State.setPc_phase (s : State) (a : Addr) : (s.setPc a).phase = s.phase := rfl
@[simp] theorem State.setPc_err (s : State) (a : Addr) : (s.setPc a).err = s.err := rfl
@[simp] theorem State.setPc_mem (s : State) (a : Addr) : (s.setPc a).mem = s.mem := rfl
@[simp] theorem State.setPc_events (s : State) (a : Addr) : (s.setPc a).events = s.events := rfl
@[simp] theorem State.setPc_schedule (s : State) (a : Addr) : (s.setPc a).schedule = s.schedule := rfl
@[simp] theorem State.setPc_answers (s : State) (a : Addr) : (s.setPc a).answers = s.answers := rfl
@[simp] theorem State.setPc_reg (s : State) (a : Addr) (j : Reg) : (s.setPc a).reg j = s.reg j := rfl

@[simp] theorem State.setDt_v (s : State) (b : Byte) : (s.setDt b).v = s.v := rfl
@[simp] theorem State.setDt_i (s : State) (b : Byte) : (s.setDt b).i = s.i := rfl
@[simp] theorem State.setDt_pc (s : State) (b : Byte) : (s.setDt b).pc = s.pc := rfl
@[simp] theorem State.setDt_dt (s : State) (b : Byte) : (s.setDt b).dt = b := rfl
@[simp] theorem State.setDt_st (s : State) (b : Byte) : (s.setDt b).st = s.st := rfl
@[simp] theorem State.setDt_sp (s : State) (b : Byte) : (s.setDt b).sp = s.sp := rfl
@[simp] theorem State.setDt_stack (s : State) (b : Byte) : (s.setDt b).stack = s.stack := rfl
@[simp] theorem State.setDt_fb (s : State) (b : Byte) : (s.setDt b).fb = s.fb := rfl
@[simp] theorem State.setDt_phase (s : State) (b : Byte) : (s.setDt b).phase = s.phase := rfl
@[simp] theorem State.setDt_err (s : State) (b : Byte) : (s.setDt b).err = s.err := rfl
@[simp] theorem State.setDt_mem (s : State) (b : Byte) : (s.setDt b).mem = s.mem := rfl
@[simp] theorem State.setDt_events (s : State) (b : Byte) : (s.setDt b).events = s.events := rfl
@[simp] theorem State.setDt_schedule (s : State) (b : Byte) : (s.setDt b).schedule = s.schedule := rfl
@[simp] theorem State.setDt_answers (s : State) (b : Byte) : (s.setDt b).answers = s.answers := rfl
@[simp] theorem State.setDt_reg (s : State) (b : Byte) (j : Reg) : (s.setDt b).reg j = s.reg j := rfl

@[simp] theorem State.setSt_v (s : State) (b : Byte) : (s.setSt b).v = s.v := rfl
@[simp] theorem State.setSt_i (s : State) (b : Byte) : (s.setSt b).i = s.i := rfl
@[simp] theorem State.setSt_pc (s : State) (b : Byte) : (s.setSt b).pc = s.pc := rfl
@[simp] theorem State.setSt_dt (s : State) (b : Byte) : (s.setSt b).dt = s.dt := rfl
@[simp] theorem State.setSt_st (s : State) (b : Byte) : (s.setSt b).st = b := rfl
@[simp] theorem State.setSt_sp (s : State) (b : Byte) : (s.setSt b).sp = s.sp := rfl
@[simp] theorem State.setSt_stack (s : State) (b : Byte) : (s.setSt b).stack = s.stack := rfl
@[simp] theorem State.setSt_fb (s : State) (b : Byte) : (s.setSt b).fb = s.fb := rfl
@[simp] theorem State.setSt_phase (s : State) (b : Byte) : (s.setSt b).phase = s.phase := rfl
@[simp] theorem State.setSt_err (s : State) (b : Byte) : (s.setSt b).err = s.err := rfl
@[simp] theorem State.setSt_mem (s : State) (b : Byte) : (s.setSt b).mem = s.mem := rfl
@[simp] theorem State.setSt_events (s : State) (b : Byte) : (s.setSt b).events = s.events := rfl
@[simp] theorem State.setSt_schedule (s : State) (b : Byte) : (s.setSt b).schedule = s.schedule := rfl
@[simp] theorem State.setSt_answers (s : State) (b : Byte) : (s.setSt b).answers = s.answers := rfl
@[simp] theorem State.setSt_reg (s : State) (b : Byte) (j : Reg) : (s.setSt b).reg j = s.reg j := rfl

@[simp] theorem State.setSp_v (s : State) (n : BitVec 5) : (s.setSp n).v = s.v := rfl
@[simp] theorem State.setSp_i (s : State) (n : BitVec 5) : (s.setSp n).i = s.i := rfl
@[simp] theorem State.setSp_pc (s : State) (n : BitVec 5) : (s.setSp n).pc = s.pc := rfl
@[simp] theorem State.setSp_dt (s : State) (n : BitVec 5) : (s.setSp n).dt = s.dt := rfl
@[simp] theorem State.setSp_st (s : State) (n : BitVec 5) : (s.setSp n).st = s.st := rfl
@[simp] theorem State.setSp_sp (s : State) (n : BitVec 5) : (s.setSp n).sp = n := rfl
@[simp] theorem State.setSp_stack (s : State) (n : BitVec 5) : (s.setSp n).stack = s.stack := rfl
@[simp] theorem State.setSp_fb (s : State) (n : BitVec 5) : (s.setSp n).fb = s.fb := rfl
@[simp] theorem State.setSp_phase (s : State) (n : BitVec 5) : (s.setSp n).phase = s.phase := rfl
@[simp] theorem State.setSp_err (s : State) (n : BitVec 5) : (s.setSp n).err = s.err := rfl
@[simp] theorem State.setSp_mem (s : State) (n : BitVec 5) : (s.setSp n).mem = s.mem := rfl
@[simp] theorem State.setSp_events (s : State) (n : BitVec 5) : (s.setSp n).events = s.events := rfl
@[simp] theorem State.setSp_schedule (s : State) (n : BitVec 5) : (s.setSp n).schedule = s.schedule := rfl
@[simp] theorem State.setSp_answers (s : State) (n : BitVec 5) : (s.setSp n).answers = s.answers := rfl
@[simp] theorem State.setSp_reg (s : State) (n : BitVec 5) (j : Reg) : (s.setSp n).reg j = s.reg j := rfl

@[simp] theorem State.setEntry_v (s : State) (k : Nat) (a : Addr) : (s.setEntry k a).v = s.v := rfl
@[simp] theorem State.setEntry_i (s : State) (k : Nat) (a : Addr) : (s.setEntry k a).i = s.i := rfl
@[simp] theorem State.setEntry_pc (s : State) (k : Nat) (a : Addr) : (s.setEntry k a).pc = s.pc := rfl
@[simp] theorem State.setEntry_dt (s : State) (k : Nat) (a : Addr) : (s.setEntry k a).dt = s.dt := rfl
@[simp] theorem State.setEntry_st (s : State) (k : Nat) (a : Addr) : (s.setEntry k a).st = s.st := rfl
@[simp] theorem State.setEntry_sp (s : State) (k : Nat) (a : Addr) : (s.setEntry k a).sp = s.sp := rfl
@[simp] theorem State.setEntry_stack (s : State) (k : Nat) (a : Addr) : (s.setEntry k a).stack = s.stack.setIfInBounds k a := rfl
@[simp] theorem State.setEntry_fb (s : State) (k : Nat) (a : Addr) : (s.setEntry k a).fb = s.fb := rfl
@[simp] theorem State.setEntry_phase (s : State) (k : Nat) (a : Addr) : (s.setEntry k a).phase = s.phase := rfl
@[simp] theorem State.setEntry_err (s : State) (k : Nat) (a : Addr) : (s.setEntry k a).err = s.err := rfl
@[simp] theorem State.setEntry_mem (s : State) (k : Nat) (a : Addr) : (s.setEntry k a).mem = s.mem := rfl
@[simp] theorem State.setEntry_events (s : State) (k : Nat) (a : Addr) : (s.setEntry k a).events = s.events := rfl
@[simp] theorem State.setEntry_schedule (s : State) (k : Nat) (a : Addr) : (s.setEntry k a).schedule = s.schedule := rfl
@[simp] theorem State.setEntry_answers (s : State) (k : Nat) (a : Addr) : (s.setEntry k a).answers = s.answers := rfl
@[simp] theorem State.setEntry_reg (s : State) (k : Nat) (a : Addr) (j : Reg) : (s.setEntry k a).reg j = s.reg j := rfl

@[simp] theorem State.setFb_v (s : State) (rows : Vector Row 32) : (s.setFb rows).v = s.v := rfl
@[simp] theorem State.setFb_i (s : State) (rows : Vector Row 32) : (s.setFb rows).i = s.i := rfl
@[simp] theorem State.setFb_pc (s : State) (rows : Vector Row 32) : (s.setFb rows).pc = s.pc := rfl
@[simp] theorem State.setFb_dt (s : State) (rows : Vector Row 32) : (s.setFb rows).dt = s.dt := rfl
@[simp] theorem State.setFb_st (s : State) (rows : Vector Row 32) : (s.setFb rows).st = s.st := rfl
@[simp] theorem State.setFb_sp (s : State) (rows : Vector Row 32) : (s.setFb rows).sp = s.sp := rfl
@[simp] theorem State.setFb_stack (s : State) (rows : Vector Row 32) : (s.setFb rows).stack = s.stack := rfl
@[simp] theorem State.setFb_fb (s : State) (rows : Vector Row 32) : (s.setFb rows).fb = rows := rfl
@[simp] theorem State.setFb_phase (s : State) (rows : Vector Row 32) : (s.setFb rows).phase = s.phase := rfl
@[simp] theorem State.setFb_err (s : State) (rows : Vector Row 32) : (s.setFb rows).err = s.err := rfl
@[simp] theorem State.setFb_mem (s : State) (rows : Vector Row 32) : (s.setFb rows).mem = s.mem := rfl
@[simp] theorem State.setFb_events (s : State) (rows : Vector Row 32) : (s.setFb rows).events = s.events := rfl
@[simp] theorem State.setFb_schedule (s : State) (rows : Vector Row 32) : (s.setFb rows).schedule = s.schedule := rfl
@[simp] theorem State.setFb_answers (s : State) (rows : Vector Row 32) : (s.setFb rows).answers = s.answers := rfl
@[simp] theorem State.setFb_reg (s : State) (rows : Vector Row 32) (j : Reg) : (s.setFb rows).reg j = s.reg j := rfl

@[simp] theorem State.setMem_v (s : State) (m : Memory) : (s.setMem m).v = s.v := rfl
@[simp] theorem State.setMem_i (s : State) (m : Memory) : (s.setMem m).i = s.i := rfl
@[simp] theorem State.setMem_pc (s : State) (m : Memory) : (s.setMem m).pc = s.pc := rfl
@[simp] theorem State.setMem_dt (s : State) (m : Memory) : (s.setMem m).dt = s.dt := rfl
@[simp] theorem State.setMem_st (s : State) (m : Memory) : (s.setMem m).st = s.st := rfl
@[simp] theorem State.setMem_sp (s : State) (m : Memory) : (s.setMem m).sp = s.sp := rfl
@[simp] theorem State.setMem_stack (s : State) (m : Memory) : (s.setMem m).stack = s.stack := rfl
@[simp] theorem State.setMem_fb (s : State) (m : Memory) : (s.setMem m).fb = s.fb := rfl
@[simp] theorem State.setMem_phase (s : State) (m : Memory) : (s.setMem m).phase = s.phase := rfl
@[simp] theorem State.setMem_err (s : State) (m : Memory) : (s.setMem m).err = s.err := rfl
@[simp] theorem State.setMem_mem (s : State) (m : Memory) : (s.setMem m).mem = m := rfl
@[simp] theorem State.setMem_events (s : State) (m : Memory) : (s.setMem m).events = s.events := rfl
@[simp] theorem State.setMem_schedule (s : State) (m : Memory) : (s.setMem m).schedule = s.schedule := rfl
@[simp] theorem State.setMem_answers (s : State) (m : Memory) : (s.setMem m).answers = s.answers := rfl
@[simp] theorem State.setMem_reg (s : State) (m : Memory) (j : Reg) : (s.setMem m).reg j = s.reg j := rfl

@[simp] theorem State.setPhase_v (s : State) (p : Phase) : (s.setPhase p).v = s.v := rfl
@[simp] theorem State.setPhase_i (s : State) (p : Phase) : (s.setPhase p).i = s.i := rfl
@[simp] theorem State.setPhase_pc (s : State) (p : Phase) : (s.setPhase p).pc = s.pc := rfl
@[simp] theorem State.setPhase_dt (s : State) (p : Phase) : (s.setPhase p).dt = s.dt := rfl
@[simp] theorem State.setPhase_st (s : State) (p : Phase) : (s.setPhase p).st = s.st := rfl
@[simp] theorem State.setPhase_sp (s : State) (p : Phase) : (s.setPhase p).sp = s.sp := rfl
@[simp] theorem State.setPhase_stack (s : State) (p : Phase) : (s.setPhase p).stack = s.stack := rfl
@[simp] theorem State.setPhase_fb (s : State) (p : Phase) : (s.setPhase p).fb = s.fb := rfl
@[simp] theorem State.setPhase_phase (s : State) (p : Phase) : (s.setPhase p).phase = p := rfl
@[simp] theorem State.setPhase_err (s : State) (p : Phase) : (s.setPhase p).err = s.err := rfl
@[simp] theorem State.setPhase_mem (s : State) (p : Phase) : (s.setPhase p).mem = s.mem := rfl
@[simp] theorem State.setPhase_events (s : State) (p : Phase) : (s.setPhase p).events = s.events := rfl
@[simp] theorem State.setPhase_schedule (s : State) (p : Phase) : (s.setPhase p).schedule = s.schedule := rfl
@[simp] theorem State.setPhase_answers (s : State) (p : Phase) : (s.setPhase p).answers = s.answers := rfl
@[simp] theorem State.setPhase_reg (s : State) (p : Phase) (j : Reg) : (s.setPhase p).reg j = s.reg j := rfl

@[simp] theorem State.emit_v (s : State) (e : DisplayEvent) : (s.emit e).v = s.v := rfl
@[simp] theorem State.emit_i (s : State) (e : DisplayEvent) : (s.emit e).i = s.i := rfl
@[simp] theorem State.emit_pc (s : State) (e : DisplayEvent) : (s.emit e).pc = s.pc := rfl
@[simp] theorem State.emit_dt (s : State) (e : DisplayEvent) : (s.emit e).dt = s.dt := rfl
@[simp] theorem State.emit_st (s : State) (e : DisplayEvent) : (s.emit e).st = s.st := rfl
@[simp] theorem State.emit_sp (s : State) (e : DisplayEvent) : (s.emit e).sp = s.sp := rfl
@[simp] theorem State.emit_stack (s : State) (e : DisplayEvent) : (s.emit e).stack = s.stack := rfl
@[simp] theorem State.emit_fb (s : State) (e : DisplayEvent) : (s.emit e).fb = s.fb := rfl
@[simp] theorem State.emit_phase (s : State) (e : DisplayEvent) : (s.emit e).phase = s.phase := rfl
@[simp] theorem State.emit_err (s : State) (e : DisplayEvent) : (s.emit e).err = s.err := rfl
@[simp] theorem State.emit_mem (s : State) (e : DisplayEvent) : (s.emit e).mem = s.mem := rfl
@[simp] theorem State.emit_events (s : State) (e : DisplayEvent) : (s.emit e).events = s.events ++ [e] := rfl
@[simp] theorem State.emit_schedule (s : State) (e : DisplayEvent) : (s.emit e).schedule = s.schedule := rfl
@[simp] theorem State.emit_answers (s : State) (e : DisplayEvent) : (s.emit e).answers = s.answers := rfl
@[simp] theorem State.emit_reg (s : State) (e : DisplayEvent) (j : Reg) : (s.emit e).reg j = s.reg j := rfl

@[simp] theorem State.setSchedule_v (s : State) (moves : List Move) : (s.setSchedule moves).v = s.v := rfl
@[simp] theorem State.setSchedule_i (s : State) (moves : List Move) : (s.setSchedule moves).i = s.i := rfl
@[simp] theorem State.setSchedule_pc (s : State) (moves : List Move) : (s.setSchedule moves).pc = s.pc := rfl
@[simp] theorem State.setSchedule_dt (s : State) (moves : List Move) : (s.setSchedule moves).dt = s.dt := rfl
@[simp] theorem State.setSchedule_st (s : State) (moves : List Move) : (s.setSchedule moves).st = s.st := rfl
@[simp] theorem State.setSchedule_sp (s : State) (moves : List Move) : (s.setSchedule moves).sp = s.sp := rfl
@[simp] theorem State.setSchedule_stack (s : State) (moves : List Move) : (s.setSchedule moves).stack = s.stack := rfl
@[simp] theorem State.setSchedule_fb (s : State) (moves : List Move) : (s.setSchedule moves).fb = s.fb := rfl
@[simp] theorem State.setSchedule_phase (s : State) (moves : List Move) : (s.setSchedule moves).phase = s.phase := rfl
@[simp] theorem State.setSchedule_err (s : State) (moves : List Move) : (s.setSchedule moves).err = s.err := rfl
@[simp] theorem State.setSchedule_mem (s : State) (moves : List Move) : (s.setSchedule moves).mem = s.mem := rfl
@[simp] theorem State.setSchedule_events (s : State) (moves : List Move) : (s.setSchedule moves).events = s.events := rfl
@[simp] theorem State.setSchedule_schedule (s : State) (moves : List Move) : (s.setSchedule moves).schedule = moves := rfl
@[simp] theorem State.setSchedule_answers (s : State) (moves : List Move) : (s.setSchedule moves).answers = s.answers := rfl
@[simp] theorem State.setSchedule_reg (s : State) (moves : List Move) (j : Reg) : (s.setSchedule moves).reg j = s.reg j := rfl

@[simp] theorem State.countAnswer_v (s : State) : (s.countAnswer).v = s.v := rfl
@[simp] theorem State.countAnswer_i (s : State) : (s.countAnswer).i = s.i := rfl
@[simp] theorem State.countAnswer_pc (s : State) : (s.countAnswer).pc = s.pc := rfl
@[simp] theorem State.countAnswer_dt (s : State) : (s.countAnswer).dt = s.dt := rfl
@[simp] theorem State.countAnswer_st (s : State) : (s.countAnswer).st = s.st := rfl
@[simp] theorem State.countAnswer_sp (s : State) : (s.countAnswer).sp = s.sp := rfl
@[simp] theorem State.countAnswer_stack (s : State) : (s.countAnswer).stack = s.stack := rfl
@[simp] theorem State.countAnswer_fb (s : State) : (s.countAnswer).fb = s.fb := rfl
@[simp] theorem State.countAnswer_phase (s : State) : (s.countAnswer).phase = s.phase := rfl
@[simp] theorem State.countAnswer_err (s : State) : (s.countAnswer).err = s.err := rfl
@[simp] theorem State.countAnswer_mem (s : State) : (s.countAnswer).mem = s.mem := rfl
@[simp] theorem State.countAnswer_events (s : State) : (s.countAnswer).events = s.events := rfl
@[simp] theorem State.countAnswer_schedule (s : State) : (s.countAnswer).schedule = s.schedule := rfl
@[simp] theorem State.countAnswer_answers (s : State) : (s.countAnswer).answers = s.answers + 1 := rfl
@[simp] theorem State.countAnswer_reg (s : State) (j : Reg) : (s.countAnswer).reg j = s.reg j := rfl

@[simp] theorem State.raise_v (s : State) (kind : ErrorKind) : (s.raise kind).v = s.v := rfl
@[simp] theorem State.raise_i (s : State) (kind : ErrorKind) : (s.raise kind).i = s.i := rfl
@[simp] theorem State.raise_pc (s : State) (kind : ErrorKind) : (s.raise kind).pc = s.pc := rfl
@[simp] theorem State.raise_dt (s : State) (kind : ErrorKind) : (s.raise kind).dt = s.dt := rfl
@[simp] theorem State.raise_st (s : State) (kind : ErrorKind) : (s.raise kind).st = s.st := rfl
@[simp] theorem State.raise_sp (s : State) (kind : ErrorKind) : (s.raise kind).sp = s.sp := rfl
@[simp] theorem State.raise_stack (s : State) (kind : ErrorKind) : (s.raise kind).stack = s.stack := rfl
@[simp] theorem State.raise_fb (s : State) (kind : ErrorKind) : (s.raise kind).fb = s.fb := rfl
@[simp] theorem State.raise_phase (s : State) (kind : ErrorKind) : (s.raise kind).phase = .halted := rfl
@[simp] theorem State.raise_err (s : State) (kind : ErrorKind) : (s.raise kind).err = some kind := rfl
@[simp] theorem State.raise_mem (s : State) (kind : ErrorKind) : (s.raise kind).mem = s.mem := rfl
@[simp] theorem State.raise_events (s : State) (kind : ErrorKind) : (s.raise kind).events = s.events := rfl
@[simp] theorem State.raise_schedule (s : State) (kind : ErrorKind) : (s.raise kind).schedule = s.schedule := rfl
@[simp] theorem State.raise_answers (s : State) (kind : ErrorKind) : (s.raise kind).answers = s.answers := rfl
@[simp] theorem State.raise_reg (s : State) (kind : ErrorKind) (j : Reg) : (s.raise kind).reg j = s.reg j := rfl

@[simp] theorem State.haltedWith_v (s : State) (kind : ErrorKind) : (s.haltedWith kind).v = s.v := rfl
@[simp] theorem State.haltedWith_i (s : State) (kind : ErrorKind) : (s.haltedWith kind).i = s.i := rfl
@[simp] theorem State.haltedWith_pc (s : State) (kind : ErrorKind) : (s.haltedWith kind).pc = s.pc := rfl
@[simp] theorem State.haltedWith_dt (s : State) (kind : ErrorKind) : (s.haltedWith kind).dt = s.dt := rfl
@[simp] theorem State.haltedWith_st (s : State) (kind : ErrorKind) : (s.haltedWith kind).st = s.st := rfl
@[simp] theorem State.haltedWith_sp (s : State) (kind : ErrorKind) : (s.haltedWith kind).sp = s.sp := rfl
@[simp] theorem State.haltedWith_stack (s : State) (kind : ErrorKind) : (s.haltedWith kind).stack = s.stack := rfl
@[simp] theorem State.haltedWith_fb (s : State) (kind : ErrorKind) : (s.haltedWith kind).fb = s.fb := rfl
@[simp] theorem State.haltedWith_phase (s : State) (kind : ErrorKind) : (s.haltedWith kind).phase = .halted := rfl
@[simp] theorem State.haltedWith_err (s : State) (kind : ErrorKind) : (s.haltedWith kind).err = some kind := rfl
@[simp] theorem State.haltedWith_mem (s : State) (kind : ErrorKind) : (s.haltedWith kind).mem = s.mem := rfl
@[simp] theorem State.haltedWith_events (s : State) (kind : ErrorKind) : (s.haltedWith kind).events = s.events := rfl
@[simp] theorem State.haltedWith_schedule (s : State) (kind : ErrorKind) : (s.haltedWith kind).schedule = s.schedule := rfl
@[simp] theorem State.haltedWith_answers (s : State) (kind : ErrorKind) : (s.haltedWith kind).answers = s.answers := rfl
@[simp] theorem State.haltedWith_reg (s : State) (kind : ErrorKind) (j : Reg) : (s.haltedWith kind).reg j = s.reg j := rfl

@[simp] theorem State.started_v (s : State) : (s.started).v = s.v := rfl
@[simp] theorem State.started_i (s : State) : (s.started).i = s.i := rfl
@[simp] theorem State.started_pc (s : State) : (s.started).pc = s.pc + 2#16 := rfl
@[simp] theorem State.started_dt (s : State) : (s.started).dt = s.dt := rfl
@[simp] theorem State.started_st (s : State) : (s.started).st = s.st := rfl
@[simp] theorem State.started_sp (s : State) : (s.started).sp = s.sp := rfl
@[simp] theorem State.started_stack (s : State) : (s.started).stack = s.stack := rfl
@[simp] theorem State.started_fb (s : State) : (s.started).fb = s.fb := rfl
@[simp] theorem State.started_phase (s : State) : (s.started).phase = s.phase := rfl
@[simp] theorem State.started_err (s : State) : (s.started).err = s.err := rfl
@[simp] theorem State.started_mem (s : State) : (s.started).mem = s.mem := rfl
@[simp] theorem State.started_events (s : State) : (s.started).events = s.events := rfl
@[simp] theorem State.started_schedule (s : State) : (s.started).schedule = s.schedule.tail := rfl
@[simp] theorem State.started_answers (s : State) : (s.started).answers = s.answers := rfl
@[simp] theorem State.started_reg (s : State) (j : Reg) : (s.started).reg j = s.reg j := rfl

@[simp] theorem State.advance_v (s : State) : (s.advance).v = s.v := rfl
@[simp] theorem State.advance_i (s : State) : (s.advance).i = s.i := rfl
@[simp] theorem State.advance_pc (s : State) : (s.advance).pc = s.pc + 2#16 := rfl
@[simp] theorem State.advance_dt (s : State) : (s.advance).dt = s.dt := rfl
@[simp] theorem State.advance_st (s : State) : (s.advance).st = s.st := rfl
@[simp] theorem State.advance_sp (s : State) : (s.advance).sp = s.sp := rfl
@[simp] theorem State.advance_stack (s : State) : (s.advance).stack = s.stack := rfl
@[simp] theorem State.advance_fb (s : State) : (s.advance).fb = s.fb := rfl
@[simp] theorem State.advance_phase (s : State) : (s.advance).phase = s.phase := rfl
@[simp] theorem State.advance_err (s : State) : (s.advance).err = s.err := rfl
@[simp] theorem State.advance_mem (s : State) : (s.advance).mem = s.mem := rfl
@[simp] theorem State.advance_events (s : State) : (s.advance).events = s.events := rfl
@[simp] theorem State.advance_schedule (s : State) : (s.advance).schedule = s.schedule := rfl
@[simp] theorem State.advance_answers (s : State) : (s.advance).answers = s.answers := rfl
@[simp] theorem State.advance_reg (s : State) (j : Reg) : (s.advance).reg j = s.reg j := rfl

@[simp] theorem State.skipIf_v (s : State) (c : Bool) : (s.skipIf c).v = s.v := rfl
@[simp] theorem State.skipIf_i (s : State) (c : Bool) : (s.skipIf c).i = s.i := rfl
@[simp] theorem State.skipIf_pc (s : State) (c : Bool) : (s.skipIf c).pc = if c then s.pc + 2#16 else s.pc := rfl
@[simp] theorem State.skipIf_dt (s : State) (c : Bool) : (s.skipIf c).dt = s.dt := rfl
@[simp] theorem State.skipIf_st (s : State) (c : Bool) : (s.skipIf c).st = s.st := rfl
@[simp] theorem State.skipIf_sp (s : State) (c : Bool) : (s.skipIf c).sp = s.sp := rfl
@[simp] theorem State.skipIf_stack (s : State) (c : Bool) : (s.skipIf c).stack = s.stack := rfl
@[simp] theorem State.skipIf_fb (s : State) (c : Bool) : (s.skipIf c).fb = s.fb := rfl
@[simp] theorem State.skipIf_phase (s : State) (c : Bool) : (s.skipIf c).phase = s.phase := rfl
@[simp] theorem State.skipIf_err (s : State) (c : Bool) : (s.skipIf c).err = s.err := rfl
@[simp] theorem State.skipIf_mem (s : State) (c : Bool) : (s.skipIf c).mem = s.mem := rfl
@[simp] theorem State.skipIf_events (s : State) (c : Bool) : (s.skipIf c).events = s.events := rfl
@[simp] theorem State.skipIf_schedule (s : State) (c : Bool) : (s.skipIf c).schedule = s.schedule := rfl
@[simp] theorem State.skipIf_answers (s : State) (c : Bool) : (s.skipIf c).answers = s.answers := rfl
@[simp] theorem State.skipIf_reg (s : State) (c : Bool) (j : Reg) : (s.skipIf c).reg j = s.reg j := rfl

end Sys2Proof.Machine
end

