-- ==== Sys2Proof/Laws/Ops.lean ====
section
/-! SUPPORT. What each shared operation can do, said once: errors, the bound check, fetch, skips, the flag-then-result
shape, the block transfers, reset, and the transitions. -/

namespace Sys2Proof.Machine

theorem State.raise_eq (s : State) (k : ErrorKind) : s.raise k = s.haltedWith k := rfl

/-- The bound check answers either the halt or what the access does (R43). -/
theorem withAccess_eq (s : State) (a n : Nat) (go : Answer) :
    withAccess s a n go = if a + n - 1 > memLast then .next (s.haltedWith .addressFault) else go := rfl

theorem withAccess_of_le {s : State} {a n : Nat} (h : a + n - 1 ≤ memLast) (go : Answer) :
    withAccess s a n go = go := by
  simp [withAccess, Nat.not_lt.mpr h]

theorem withAccess_of_gt {s : State} {a n : Nat} (h : a + n - 1 > memLast) (go : Answer) :
    withAccess s a n go = .next (s.haltedWith .addressFault) := by
  simp [withAccess, h, State.raise_eq]

/-- Mapping the next state commutes with the bound check where the map commutes with the halt. -/
theorem onNext_withAccess {f : State → State} {s : State}
    (h : f (s.haltedWith .addressFault) = (f s).haltedWith .addressFault) (a n : Nat) (go : Answer) :
    onNext f (withAccess s a n go) = withAccess (f s) a n (onNext f go) := by
  simp only [withAccess_eq]
  split
  · exact congrArg _ h
  · rfl

@[simp] theorem onNext_next (f : State → State) (s : State) : onNext f (.next s) = .next (f s) := rfl

theorem onNext_ite (f : State → State) (c : Prop) [Decidable c] (a b : Answer) :
    onNext f (if c then a else b) = if c then onNext f a else onNext f b := apply_ite _ _ _ _

/-- The addressing mode is `I` plus the offset as naturals (R54). -/
theorem State.baseOffset_eq (s : State) (k : Nat) : s.baseOffset k = s.i.toNat + k := rfl

theorem addrOf_toNat (nnn : Imm12) : (addrOf nnn).toNat = nnn.toNat := by
  have := nnn.isLt
  simp only [addrOf, BitVec.toNat_setWidth]; omega

theorem wide_toNat (b : Byte) : (wide b).toNat = b.toNat := by
  have := b.isLt
  simp only [wide, BitVec.toNat_setWidth]; omega

theorem regOfIndex_toNat {k : Nat} (h : k < 16) : (regOfIndex k).toNat = k := by
  simp only [regOfIndex, BitVec.toNat_ofNat]; omega

@[simp] theorem regOfIndex_of_toNat (x : Reg) : regOfIndex x.toNat = x := by simp [regOfIndex]

theorem regOfIndex_inj {j k : Nat} (hj : j < 16) (hk : k < 16) : regOfIndex j = regOfIndex k ↔ j = k := by
  rw [← BitVec.toNat_inj, regOfIndex_toNat hj, regOfIndex_toNat hk]

theorem carryFlag_toNat (a b : Byte) : (carryFlag a b).toNat = if a.toNat + b.toNat > 255 then 1 else 0 := by
  have := a.isLt; have := b.isLt
  simp only [carryFlag, sum9, BitVec.truncate_eq_setWidth, BitVec.toNat_setWidth, BitVec.toNat_ushiftRight,
    BitVec.toNat_add, Nat.shiftRight_eq_div_pow]
  split <;> omega

theorem sumLow_toNat (a b : Byte) : (sumLow a b).toNat = (a.toNat + b.toNat) % 256 := by
  have := a.isLt; have := b.isLt
  simp only [sumLow, sum9, BitVec.truncate_eq_setWidth, BitVec.toNat_setWidth, BitVec.toNat_add]
  omega

theorem flagByte_toNat (c : Bool) : (flagByte c).toNat = if c then 1 else 0 := by cases c <;> rfl

theorem greaterFlag_toNat (a b : Byte) : (greaterFlag a b).toNat = if a.toNat > b.toNat then 1 else 0 := by
  simp [greaterFlag, flagByte_toNat, BitVec.lt_def]

theorem lowBitFlag_toNat (a : Byte) : (lowBitFlag a).toNat = a.toNat % 2 := by
  simp [lowBitFlag, Nat.and_one_is_mod]

theorem highBitFlag_toNat (a : Byte) : (highBitFlag a).toNat = a.toNat / 128 := by
  simp [highBitFlag, Nat.shiftRight_eq_div_pow]

/-- The flag-then-result shape, register by register (R13). -/
theorem flagThen_reg (s : State) (flag : Byte) (x : Reg) (result : State → Byte) (k : Reg) :
    (flagThen s flag x result).reg k =
      if k = x then result (s.setReg VF flag) else if k = VF then flag else s.reg k := by
  simp only [flagThen, State.reg_setReg]

/-- Bytes after `v[0]` to `v[count - 1]` were stored from `I` on (R144). -/
theorem storeRegs_read (s : State) (count a : Nat) :
    (storeRegs s count).read a =
      if s.i.toNat ≤ a ∧ a < s.i.toNat + count then s.reg (regOfIndex (a - s.i.toNat)) else s.mem.read a := by
  induction count with
  | zero => simp only [storeRegs]; rw [if_neg (by omega)]
  | succ k ih =>
    simp only [storeRegs, Memory.read_write, ih, State.baseOffset_eq]
    by_cases h : a = s.i.toNat + k
    · subst h; simp
    · have : (s.i.toNat ≤ a ∧ a < s.i.toNat + (k + 1)) ↔ (s.i.toNat ≤ a ∧ a < s.i.toNat + k) := by omega
      simp [h, this]

theorem storeRegs_wf {s : State} (h : s.mem.wf) {count : Nat} (inside : s.i.toNat + count ≤ memSize) :
    (storeRegs s count).wf := by
  induction count with
  | zero => exact h
  | succ k ih => exact Memory.wf_write (ih (by omega)) (by simp only [State.baseOffset_eq]; omega) _

/-- Registers after `v[0]` to `v[count - 1]` were loaded from `I` on (R145). -/
theorem loadRegs_reg (s : State) {count : Nat} (h : count ≤ 16) (k : Reg) :
    (loadRegs s count).reg k = if k.toNat < count then s.mem.read (s.baseOffset k.toNat) else s.reg k := by
  induction count with
  | zero => simp [loadRegs]
  | succ n ih =>
    simp only [loadRegs, State.reg_setReg, ih (by omega)]
    have hk : k = regOfIndex n ↔ k.toNat = n := by
      rw [← BitVec.toNat_inj, regOfIndex_toNat (by omega)]
    by_cases e : k.toNat = n
    · rw [if_pos (hk.mpr e), if_pos (by omega), e]
    · rw [if_neg (fun c => e (hk.mp c))]
      by_cases l : k.toNat < n
      · rw [if_pos l, if_pos (by omega)]
      · rw [if_neg l, if_neg (by omega)]

/-- A block load touches the registers only (R145). -/
theorem loadRegs_frame (s : State) (count : Nat) : loadRegs s count = { s with v := (loadRegs s count).v } := by
  induction count with
  | zero => rfl
  | succ n ih => simp only [loadRegs]; rw [ih]; rfl

/-- Memory after a reset: the image from 0x200, the reset content elsewhere (R231 to R233). -/
theorem State.restart_read (s : State) (image : Image) (a : Nat) :
    (s.restart image).mem.read a =
      if progBase ≤ a then (image.bytes[a - progBase]?).getD (Memory.unlisted a) else Memory.unlisted a := by
  simp [State.restart, Memory.read_writeBytes, Memory.read]

theorem State.restart_wf (s : State) (image : Image) : (s.restart image).mem.wf :=
  Memory.wf_writeBytes _ Memory.wf_nil (by have := image.fits; simp only [progBase, memSize]; omega)

theorem State.canFetch_iff (s : State) : s.canFetch = true ↔ s.pc.toNat + 2 ≤ 0xFFF := by
  simp [State.canFetch, fetchLimit]

/-- A state with an empty schedule keeps it when an offer is used up. -/
theorem State.setSchedule_tail_nil {s : State} (h : s.schedule = []) : s.setSchedule s.schedule.tail = s := by
  cases s; simp_all [State.setSchedule]

/-- An instruction step offered (R97). -/
theorem transition_of_offers {run : Instr → State → Answer} {s : State} (h : offersInstruction s.schedule = true) :
    transition run s = offerInstruction run (s.setSchedule s.schedule.tail) := by
  unfold transition
  split
  · next e => rw [State.setSchedule_tail_nil e]
  · next e => simp [e]
  all_goals next e => simp [e, offersInstruction] at h

theorem transition_of_tick {run : Instr → State → Answer} {s : State} {rest : List Move}
    (h : s.schedule = .tick :: rest) : transition run s = .next (s.setSchedule rest).tick := by
  simp [transition, h]

theorem transition_of_keyPress {run : Instr → State → Answer} {s : State} {key : BitVec 4} {rest : List Move}
    (h : s.schedule = .keyPress key :: rest) : transition run s = .next ((s.setSchedule rest).pressKey key) := by
  simp [transition, h]

theorem transition_of_reset {run : Instr → State → Answer} {s : State} {image : Image} {rest : List Move}
    (h : s.schedule = .reset image :: rest) : transition run s = .next ((s.setSchedule rest).restart image) := by
  simp [transition, h]

/-- An instruction step that is offered in `RUN` with the fetch in bounds runs the word at `PC` (R98). -/
theorem transition_of_running {run : Instr → State → Answer} {s : State} (h : s.Running) (fetch : s.canFetch = true) :
    transition run s = run (decodeWord s.fetchWord) s.started := by
  rw [transition_of_offers h.2]
  simp only [offerInstruction, State.setSchedule_phase, h.1, instructionStep]
  exact if_pos fetch

/-- An instruction step that is offered in `RUN` with the fetch out of bounds halts, `PC` as it was (R91, R203). -/
theorem transition_of_fetchFault {run : Instr → State → Answer} {s : State} (h : s.Running)
    (fetch : s.canFetch = false) :
    transition run s = .next ((s.setSchedule s.schedule.tail).haltedWith .addressFault) := by
  rw [transition_of_offers h.2]
  simp only [offerInstruction, State.setSchedule_phase, h.1, instructionStep]
  exact if_neg (ne_true_of_eq_false fetch)

/-- An instruction step offered outside `RUN` changes nothing (R95, R206). -/
theorem transition_of_idle {run : Instr → State → Answer} {s : State} (h : offersInstruction s.schedule = true)
    (idle : s.phase ≠ .run) : transition run s = .next (s.setSchedule s.schedule.tail) := by
  rw [transition_of_offers h]
  cases hp : s.phase with
  | run => exact absurd hp idle
  | waitKey x => simp [offerInstruction, hp]
  | halted => simp [offerInstruction, hp]

/-- The schedule's next move is an instruction step, a Tick, a key press or a reset. -/
theorem schedule_cases (moves : List Move) :
    offersInstruction moves = true ∨ (∃ rest, moves = .tick :: rest) ∨ (∃ key rest, moves = .keyPress key :: rest) ∨
      ∃ image rest, moves = .reset image :: rest := by
  match moves with
  | [] => simp [offersInstruction]
  | .instruction :: rest => simp [offersInstruction]
  | .tick :: rest => simp
  | .keyPress key :: rest => simp
  | .reset image :: rest => simp

/-- Everything a transition that answers a next state can be (R95): the move used up, then its effect by `PHASE`. -/
theorem transition_next {run : Instr → State → Answer} {s t : State} (h : transition run s = .next t) :
    (s.Running ∧ s.canFetch = true ∧ run (decodeWord s.fetchWord) s.started = .next t) ∨
    (s.Running ∧ s.canFetch = false ∧ t = (s.setSchedule s.schedule.tail).haltedWith .addressFault) ∨
    (s.phase ≠ .run ∧ t = s.setSchedule s.schedule.tail) ∨
    (∃ rest, s.schedule = .tick :: rest ∧ t = (s.setSchedule rest).tick) ∨
    (∃ key rest, s.schedule = .keyPress key :: rest ∧ t = (s.setSchedule rest).pressKey key) ∨
    (∃ image rest, s.schedule = .reset image :: rest ∧ t = (s.setSchedule rest).restart image) := by
  rcases schedule_cases s.schedule with ho | ⟨rest, e⟩ | ⟨key, rest, e⟩ | ⟨image, rest, e⟩
  · by_cases hp : s.phase = .run
    · cases hf : s.canFetch with
      | true => exact Or.inl ⟨⟨hp, ho⟩, rfl, (transition_of_running ⟨hp, ho⟩ hf).symm.trans h⟩
      | false =>
        rw [transition_of_fetchFault ⟨hp, ho⟩ hf] at h
        injection h with h
        exact Or.inr (Or.inl ⟨⟨hp, ho⟩, rfl, h.symm⟩)
    · rw [transition_of_idle ho hp] at h
      injection h with h
      exact Or.inr (Or.inr (Or.inl ⟨hp, h.symm⟩))
  · rw [transition_of_tick e] at h; injection h with h
    exact Or.inr (Or.inr (Or.inr (Or.inl ⟨rest, e, h.symm⟩)))
  · rw [transition_of_keyPress e] at h; injection h with h
    exact Or.inr (Or.inr (Or.inr (Or.inr (Or.inl ⟨key, rest, e, h.symm⟩))))
  · rw [transition_of_reset e] at h; injection h with h
    exact Or.inr (Or.inr (Or.inr (Or.inr (Or.inr ⟨image, rest, e, h.symm⟩))))

end Sys2Proof.Machine
end

