-- ==== Sys2Proof/Laws/Draw.lean ====
section
/-! SUPPORT. Everything DRW's loop can do (44_display.md R161 to R164), by one induction over the drawn rows. -/

namespace Sys2Proof.Machine

/-- What the loop's variables hold after the rows `t` to `t + count - 1` were drawn at horizontal operand `h`. -/
structure DrawnRows (s : State) (h : Byte) (t count : Nat) (d : Drawing) : Prop where
  /-- A drawn row is the old one XOR the placed sprite row, every other is kept. -/
  row : ∀ k (hk : k < 32), d.fb[k] = if t ≤ k ∧ k < t + count then s.fb[k] ^^^ spriteRow s h t k else s.fb[k]
  /-- Some set pixel was turned off. -/
  collided : d.collided = true ↔
    ∃ k, ∃ hk : k < 32, (t ≤ k ∧ k < t + count) ∧ s.fb[k] &&& spriteRow s h t k ≠ 0#64
  /-- The event's rows are the drawn ones in increasing order, with their new values. -/
  rows : d.rows.map (fun u => (u.1.val, some u.2)) = (List.range count).map fun r => (t + r, d.fb[t + r]?)
  /-- The event describes the change of the framebuffer. -/
  replayed : d.rows.foldl (fun rowsSoFar u => rowsSoFar.set u.1 u.2) s.fb = d.fb

theorem drawRows_drawn (s : State) (h : Byte) (t count : Nat) (inside : t + count ≤ 32 ∨ count = 0) :
    DrawnRows s h t count (drawRows s h t count) := by
  induction count with
  | zero => exact ⟨by intro k _; simp [drawRows], by simp [drawRows], by simp [drawRows], by simp [drawRows]⟩
  | succ c ih =>
    have ih := ih (by omega)
    have hi : t + c < 32 := by omega
    have old : (drawRows s h t c).fb[t + c] = s.fb[t + c] := by rw [ih.row]; simp
    have placed : spriteRow s h t (t + c) = place (s.mem.read (s.baseOffset c)) h := by simp [spriteRow, State.baseOffset]
    refine ⟨?_, ?_, ?_, ?_⟩
    · intro k hk
      simp only [drawRows, drawRow, hi, dif_pos, Vector.getElem_set, old]
      by_cases e : t + c = k
      · subst e; simp [placed]
      · simp only [e, if_false]; rw [ih.row k hk]
        have : (t ≤ k ∧ k < t + (c + 1)) ↔ (t ≤ k ∧ k < t + c) := by omega
        simp only [this]
    · simp only [drawRows, drawRow, hi, dif_pos, old, Bool.or_eq_true, ih.collided, collides, bne_iff_ne]
      constructor
      · rintro (⟨k, hk, h1, h2⟩ | h)
        · exact ⟨k, hk, by omega, h2⟩
        · exact ⟨t + c, hi, by omega, by rw [placed]; exact h⟩
      · rintro ⟨k, hk, h1, h2⟩
        by_cases e : k = t + c
        · subst e; rw [placed] at h2; exact Or.inr h2
        · exact Or.inl ⟨k, hk, by omega, h2⟩
    · simp only [drawRows, drawRow, hi, dif_pos, List.map_append, ih.rows, List.range_succ]
      congr 1
      · apply List.map_congr_left
        intro r hr; simp at hr; simp; rw [Vector.getElem?_set_ne]; omega
      · simp [hi]
    · simp only [drawRows, drawRow, hi, dif_pos, List.foldl_append, ih.replayed]; rfl

/-- The rows DRW draws lie on the screen (R161). -/
theorem rowsDrawn_inside (s : State) (y : Reg) (n : Imm4) :
    (s.reg y).toNat + rowsDrawn s y n ≤ 32 ∨ rowsDrawn s y n = 0 := by simp only [rowsDrawn]; omega

end Sys2Proof.Machine
end

