-- ==== Sys2Proof/Laws/Encoding.lean ====
section
/-! SUPPORT. The fields of a word as numbers (30_encoding.md R61), and the fields of the encoder's three word shapes. -/

namespace Sys2Proof

theorem append_toNat {m n : Nat} (a : BitVec m) (b : BitVec n) : (a ++ b).toNat = a.toNat * 2 ^ n + b.toNat := by
  rw [BitVec.toNat_append, ← Nat.shiftLeft_add_eq_or_of_lt b.isLt, Nat.shiftLeft_eq]

theorem opcodeField_toNat (w : Word) : (opcodeField w).toNat = w.toNat / 4096 % 16 := by
  simp [opcodeField, Nat.shiftRight_eq_div_pow]

theorem xField_toNat (w : Word) : (xField w).toNat = w.toNat / 256 % 16 := by
  simp [xField, Nat.shiftRight_eq_div_pow]

theorem yField_toNat (w : Word) : (yField w).toNat = w.toNat / 16 % 16 := by
  simp [yField, Nat.shiftRight_eq_div_pow]

theorem nField_toNat (w : Word) : (nField w).toNat = w.toNat % 16 := by simp [nField]

theorem nnField_toNat (w : Word) : (nnField w).toNat = w.toNat % 256 := by simp [nnField]

theorem nnnField_toNat (w : Word) : (nnnField w).toNat = w.toNat % 4096 := by simp [nnnField]

/-- A word of format `A` as a number (R62). -/
theorem wordA_toNat (o : BitVec 4) (a : Imm12) : (o ++ a : Word).toNat = o.toNat * 4096 + a.toNat :=
  append_toNat o a

/-- A word of format `XK` as a number (R62). -/
theorem wordXK_toNat (o : BitVec 4) (x : Reg) (k : Imm8) :
    (o ++ x ++ k : Word).toNat = (o.toNat * 16 + x.toNat) * 256 + k.toNat :=
  (append_toNat (o ++ x) k).trans (by rw [append_toNat o x]; rfl)

/-- A word of format `XYN` as a number (R62). -/
theorem wordXYN_toNat (o : BitVec 4) (x y : Reg) (n : Imm4) :
    (o ++ x ++ y ++ n : Word).toNat = ((o.toNat * 16 + x.toNat) * 16 + y.toNat) * 16 + n.toNat :=
  (append_toNat (o ++ x ++ y) n).trans (by rw [append_toNat (o ++ x) y, append_toNat o x]; rfl)

theorem fieldsA (o : BitVec 4) (a : Imm12) : opcodeField (o ++ a : Word) = o ∧ nnnField (o ++ a : Word) = a := by
  have := o.isLt; have := a.isLt
  constructor <;> apply BitVec.eq_of_toNat_eq
  · rw [opcodeField_toNat, wordA_toNat]; omega
  · rw [nnnField_toNat, wordA_toNat]; omega

theorem fieldsXK (o : BitVec 4) (x : Reg) (k : Imm8) :
    opcodeField (o ++ x ++ k : Word) = o ∧ xField (o ++ x ++ k : Word) = x ∧ nnField (o ++ x ++ k : Word) = k := by
  have := o.isLt; have := x.isLt; have := k.isLt
  refine ⟨?_, ?_, ?_⟩ <;> apply BitVec.eq_of_toNat_eq
  · rw [opcodeField_toNat, wordXK_toNat]; omega
  · rw [xField_toNat, wordXK_toNat]; omega
  · rw [nnField_toNat, wordXK_toNat]; omega

theorem fieldsXYN (o : BitVec 4) (x y : Reg) (n : Imm4) :
    opcodeField (o ++ x ++ y ++ n : Word) = o ∧ xField (o ++ x ++ y ++ n : Word) = x ∧
      yField (o ++ x ++ y ++ n : Word) = y ∧ nField (o ++ x ++ y ++ n : Word) = n := by
  have := o.isLt; have := x.isLt; have := y.isLt; have := n.isLt
  refine ⟨?_, ?_, ?_, ?_⟩ <;> apply BitVec.eq_of_toNat_eq
  · rw [opcodeField_toNat, wordXYN_toNat]; omega
  · rw [xField_toNat, wordXYN_toNat]; omega
  · rw [yField_toNat, wordXYN_toNat]; omega
  · rw [nField_toNat, wordXYN_toNat]; omega

/-- The two bytes of a word, put together again (R46). -/
theorem wordOfBytes_bytesOfWord (w : Word) : wordOfBytes (w.extractLsb' 8 8) (w.extractLsb' 0 8) = w := by
  apply BitVec.eq_of_toNat_eq
  have := w.isLt
  refine (append_toNat (w.extractLsb' 8 8) (w.extractLsb' 0 8)).trans ?_
  simp only [BitVec.extractLsb'_toNat, Nat.shiftRight_eq_div_pow]
  omega

end Sys2Proof
end

