-- ==== Sys2Proof/Laws/Exec.lean ====
section
/-! SUPPORT. Where an instruction's rule has cases, each case as an equation of `exec`, so that no proof splits the
meaning itself. -/

namespace Sys2Proof.Machine

/-- R100, `SP` = 0. -/
theorem exec_ret_underflow {s : State} (h : s.sp.toNat = 0) : exec .ret s = .next (s.haltedWith .stackUnderflow) := by
  have h0 : s.sp = 0#5 := BitVec.eq_of_toNat_eq h
  simp [exec, execRet, h0, State.raise_eq]

/-- R100, `SP` from 1 to 16. -/
theorem exec_ret_pop {s : State} (low : 0 < s.sp.toNat) (high : s.sp.toNat ≤ 16) :
    exec .ret s = .next ((s.setSp (s.sp - 1#5)).setPc (s.stack[s.sp.toNat - 1]'(by omega))) := by
  have h0 : s.sp ≠ 0#5 := fun e => by simp [e] at low
  have inside : s.sp.toNat - 1 < 16 := by omega
  simp [exec, execRet, h0, inside]

/-- R102, `SP` below 16. -/
theorem exec_call_push {s : State} (h : s.sp.toNat < 16) (nnn : Imm12) :
    exec (.call nnn) s = .next (((s.setEntry s.sp.toNat s.pc).setSp (s.sp + 1#5)).setPc (addrOf nnn)) :=
  if_neg (Nat.not_le.mpr h)

/-- R102, `SP` at 16 or above. -/
theorem exec_call_overflow {s : State} (h : 16 ≤ s.sp.toNat) (nnn : Imm12) :
    exec (.call nnn) s = .next (s.haltedWith .stackOverflow) :=
  if_pos h

/-- R142, a digit. -/
theorem exec_ldF_digit {s : State} {x : Reg} (h : (s.reg x).toNat < 16) :
    exec (.ldF x) s = .next (s.setI (digitAddr (s.reg x))) :=
  if_neg (Nat.not_le.mpr h)

/-- R142, no digit. -/
theorem exec_ldF_invalid {s : State} {x : Reg} (h : 16 ≤ (s.reg x).toNat) :
    exec (.ldF x) s = .next (s.haltedWith .invalidDigit) :=
  if_pos h

/-- R143, in bounds. -/
theorem exec_ldB_store {s : State} (x : Reg) (h : s.i.toNat + 2 ≤ memLast) :
    exec (.ldB x) s = .next (s.setMem (((s.mem.write (s.baseOffset 0) (hundreds (s.reg x))).write
      (s.baseOffset 1) (tens (s.reg x))).write (s.baseOffset 2) (ones (s.reg x)))) :=
  withAccess_of_le (by simp only [State.baseOffset_eq]; omega) _

/-- R143, out of bounds. -/
theorem exec_ldB_fault {s : State} (x : Reg) (h : s.i.toNat + 2 > memLast) :
    exec (.ldB x) s = .next (s.haltedWith .addressFault) :=
  withAccess_of_gt (by simp only [State.baseOffset_eq]; omega) _

/-- R144, in bounds. -/
theorem exec_ldMemVx_store {s : State} {x : Reg} (h : s.i.toNat + x.toNat ≤ memLast) :
    exec (.ldMemVx x) s = .next (s.setMem (storeRegs s (x.toNat + 1))) :=
  withAccess_of_le (by simp only [State.baseOffset_eq]; omega) _

/-- R144, out of bounds. -/
theorem exec_ldMemVx_fault {s : State} {x : Reg} (h : s.i.toNat + x.toNat > memLast) :
    exec (.ldMemVx x) s = .next (s.haltedWith .addressFault) :=
  withAccess_of_gt (by simp only [State.baseOffset_eq]; omega) _

/-- R145, in bounds. -/
theorem exec_ldVxMem_load {s : State} {x : Reg} (h : s.i.toNat + x.toNat ≤ memLast) :
    exec (.ldVxMem x) s = .next (loadRegs s (x.toNat + 1)) :=
  withAccess_of_le (by simp only [State.baseOffset_eq]; omega) _

/-- R145, out of bounds. -/
theorem exec_ldVxMem_fault {s : State} {x : Reg} (h : s.i.toNat + x.toNat > memLast) :
    exec (.ldVxMem x) s = .next (s.haltedWith .addressFault) :=
  withAccess_of_gt (by simp only [State.baseOffset_eq]; omega) _

theorem rowCount_eq (s : State) (y : Reg) (n : Imm4) : rowCount n (s.reg y) = rowsDrawn s y n := rfl

/-- R161, nothing to draw or in bounds. -/
theorem exec_drw_draw {s : State} (x : Reg) {y : Reg} {n : Imm4}
    (h : rowsDrawn s y n = 0 ∨ s.i.toNat + rowsDrawn s y n - 1 ≤ memLast) :
    exec (.drw x y n) s = .next (finishDrawing s (rowsDrawn s y n)
      (drawRows s (s.reg x) (s.reg y).toNat (rowsDrawn s y n))) := by
  by_cases some : rowsDrawn s y n > 0
  · exact (if_pos (c := rowCount n (s.reg y) > 0) some).trans
      (withAccess_of_le (by simp only [State.baseOffset_eq, rowCount_eq]; omega) _)
  · exact if_neg (c := rowCount n (s.reg y) > 0) some

/-- R161, a sprite byte out of bounds. -/
theorem exec_drw_fault {s : State} (x : Reg) {y : Reg} {n : Imm4} (some : 0 < rowsDrawn s y n)
    (h : s.i.toNat + rowsDrawn s y n - 1 > memLast) :
    exec (.drw x y n) s = .next (s.haltedWith .addressFault) :=
  (if_pos (c := rowCount n (s.reg y) > 0) some).trans
    (withAccess_of_gt (by simp only [State.baseOffset_eq, rowCount_eq]; omega) _)

end Sys2Proof.Machine
end

