-- ==== Sys2Proof/Laws/PerInstr.lean ====
section
/-! SUPPORT. Per-instruction statements. The family RowPattern: the word of a well-formed instruction matches its row's
mask and match of 30_encoding.md R66 (R69 and opcode_table.json for the illegal rows). -/

namespace Sys2Proof.Laws.RowPattern

/-- The `mask` and `match` of an instruction's row. -/
def row (i : Instr) : Word × Word :=
  match i with
  | .cls => (0xFFFF#16, 0x00E0#16)
  | .ret => (0xFFFF#16, 0x00EE#16)
  | .jp _ => (0xF000#16, 0x1000#16)
  | .call _ => (0xF000#16, 0x2000#16)
  | .seImm _ _ => (0xF000#16, 0x3000#16)
  | .sneImm _ _ => (0xF000#16, 0x4000#16)
  | .seReg _ _ => (0xF00F#16, 0x5000#16)
  | .ldImm _ _ => (0xF000#16, 0x6000#16)
  | .addImm _ _ => (0xF000#16, 0x7000#16)
  | .ldReg _ _ => (0xF00F#16, 0x8000#16)
  | .orReg _ _ => (0xF00F#16, 0x8001#16)
  | .andReg _ _ => (0xF00F#16, 0x8002#16)
  | .xorReg _ _ => (0xF00F#16, 0x8003#16)
  | .addReg _ _ => (0xF00F#16, 0x8004#16)
  | .sub _ _ => (0xF00F#16, 0x8005#16)
  | .shr _ _ => (0xF00F#16, 0x8006#16)
  | .subn _ _ => (0xF00F#16, 0x8007#16)
  | .shl _ _ => (0xF00F#16, 0x800E#16)
  | .sneReg _ _ => (0xF00F#16, 0x9000#16)
  | .ldI _ => (0xF000#16, 0xA000#16)
  | .jpV0 _ => (0xF000#16, 0xB000#16)
  | .rnd _ _ => (0xF000#16, 0xC000#16)
  | .drw _ _ _ => (0xF000#16, 0xD000#16)
  | .skp _ => (0xF0FF#16, 0xE09E#16)
  | .sknp _ => (0xF0FF#16, 0xE0A1#16)
  | .ldVxDT _ => (0xF0FF#16, 0xF006#16)
  | .ldVxK _ => (0xF0FF#16, 0xF00A#16)
  | .ldDTVx _ => (0xF0FF#16, 0xF015#16)
  | .ldSTVx _ => (0xF0FF#16, 0xF018#16)
  | .addI _ => (0xF0FF#16, 0xF01E#16)
  | .ldF _ => (0xF0FF#16, 0xF029#16)
  | .ldB _ => (0xF0FF#16, 0xF033#16)
  | .ldMemVx _ => (0xF0FF#16, 0xF055#16)
  | .ldVxMem _ => (0xF0FF#16, 0xF065#16)
  | .illegal0 _ => (0xF000#16, 0x0000#16)
  | .illegal5 _ _ _ => (0xF000#16, 0x5000#16)
  | .illegal8 _ _ _ => (0xF000#16, 0x8000#16)
  | .illegal9 _ _ _ => (0xF000#16, 0x9000#16)
  | .illegalE _ _ => (0xF000#16, 0xE000#16)
  | .illegalF _ _ => (0xF000#16, 0xF000#16)

/-- The word of `i` matches its row. -/
def Statement (i : Instr) : Prop := i.wellFormed = true → encodeWord i &&& (row i).1 = (row i).2

/-! The shapes of a word under the masks, bit by bit. -/

theorem mask_z (o : BitVec 4) (a : Imm12) : (o ++ a : BitVec (4 + 12)) &&& 0xF000#(4 + 12) = o ++ 0x000#12 := by
  ext k hk
  simp only [BitVec.getElem_and, BitVec.getElem_append]
  interval_cases k <;> simp

theorem mask_xk (o : BitVec 4) (x : Reg) (nn : Imm8) :
    (o ++ x ++ nn : BitVec (4 + 4 + 8)) &&& 0xF000#(4 + 4 + 8) = o ++ 0x0#4 ++ 0x00#8 := by
  ext k hk
  simp only [BitVec.getElem_and, BitVec.getElem_append]
  interval_cases k <;> simp

theorem mask_xyn (o : BitVec 4) (x y : Reg) (n : Imm4) :
    (o ++ x ++ y ++ n : BitVec (4 + 4 + 4 + 4)) &&& 0xF000#(4 + 4 + 4 + 4) = o ++ 0x0#4 ++ 0x0#4 ++ 0x0#4 := by
  ext k hk
  simp only [BitVec.getElem_and, BitVec.getElem_append]
  interval_cases k <;> simp

theorem mask_xys (o : BitVec 4) (x y : Reg) (n : Imm4) :
    (o ++ x ++ y ++ n : BitVec (4 + 4 + 4 + 4)) &&& 0xF00F#(4 + 4 + 4 + 4) = o ++ 0x0#4 ++ 0x0#4 ++ n := by
  ext k hk
  simp only [BitVec.getElem_and, BitVec.getElem_append]
  interval_cases k <;> simp

theorem mask_xs (o : BitVec 4) (x : Reg) (nn : Imm8) :
    (o ++ x ++ nn : BitVec (4 + 4 + 8)) &&& 0xF0FF#(4 + 4 + 8) = o ++ 0x0#4 ++ nn := by
  ext k hk
  simp only [BitVec.getElem_and, BitVec.getElem_append]
  interval_cases k <;> simp

theorem cls : Statement (.cls) := fun _ => rfl

theorem ret : Statement (.ret) := fun _ => rfl

theorem jp (nnn : Imm12) : Statement (.jp nnn) := fun _ => (mask_z _ _)

theorem call (nnn : Imm12) : Statement (.call nnn) := fun _ => (mask_z _ _)

theorem seImm (x : Reg) (nn : Imm8) : Statement (.seImm x nn) := fun _ => (mask_xk _ _ _)

theorem sneImm (x : Reg) (nn : Imm8) : Statement (.sneImm x nn) := fun _ => (mask_xk _ _ _)

theorem seReg (x : Reg) (y : Reg) : Statement (.seReg x y) := fun _ => (mask_xys _ _ _ _)

theorem ldImm (x : Reg) (nn : Imm8) : Statement (.ldImm x nn) := fun _ => (mask_xk _ _ _)

theorem addImm (x : Reg) (nn : Imm8) : Statement (.addImm x nn) := fun _ => (mask_xk _ _ _)

theorem ldReg (x : Reg) (y : Reg) : Statement (.ldReg x y) := fun _ => (mask_xys _ _ _ _)

theorem orReg (x : Reg) (y : Reg) : Statement (.orReg x y) := fun _ => (mask_xys _ _ _ _)

theorem andReg (x : Reg) (y : Reg) : Statement (.andReg x y) := fun _ => (mask_xys _ _ _ _)

theorem xorReg (x : Reg) (y : Reg) : Statement (.xorReg x y) := fun _ => (mask_xys _ _ _ _)

theorem addReg (x : Reg) (y : Reg) : Statement (.addReg x y) := fun _ => (mask_xys _ _ _ _)

theorem sub (x : Reg) (y : Reg) : Statement (.sub x y) := fun _ => (mask_xys _ _ _ _)

theorem shr (x : Reg) (y : Reg) : Statement (.shr x y) := fun _ => (mask_xys _ _ _ _)

theorem subn (x : Reg) (y : Reg) : Statement (.subn x y) := fun _ => (mask_xys _ _ _ _)

theorem shl (x : Reg) (y : Reg) : Statement (.shl x y) := fun _ => (mask_xys _ _ _ _)

theorem sneReg (x : Reg) (y : Reg) : Statement (.sneReg x y) := fun _ => (mask_xys _ _ _ _)

theorem ldI (nnn : Imm12) : Statement (.ldI nnn) := fun _ => (mask_z _ _)

theorem jpV0 (nnn : Imm12) : Statement (.jpV0 nnn) := fun _ => (mask_z _ _)

theorem rnd (x : Reg) (nn : Imm8) : Statement (.rnd x nn) := fun _ => (mask_xk _ _ _)

theorem drw (x : Reg) (y : Reg) (n : Imm4) : Statement (.drw x y n) := fun _ => (mask_xyn _ _ _ _)

theorem skp (x : Reg) : Statement (.skp x) := fun _ => (mask_xs _ _ _)

theorem sknp (x : Reg) : Statement (.sknp x) := fun _ => (mask_xs _ _ _)

theorem ldVxDT (x : Reg) : Statement (.ldVxDT x) := fun _ => (mask_xs _ _ _)

theorem ldVxK (x : Reg) : Statement (.ldVxK x) := fun _ => (mask_xs _ _ _)

theorem ldDTVx (x : Reg) : Statement (.ldDTVx x) := fun _ => (mask_xs _ _ _)

theorem ldSTVx (x : Reg) : Statement (.ldSTVx x) := fun _ => (mask_xs _ _ _)

theorem addI (x : Reg) : Statement (.addI x) := fun _ => (mask_xs _ _ _)

theorem ldF (x : Reg) : Statement (.ldF x) := fun _ => (mask_xs _ _ _)

theorem ldB (x : Reg) : Statement (.ldB x) := fun _ => (mask_xs _ _ _)

theorem ldMemVx (x : Reg) : Statement (.ldMemVx x) := fun _ => (mask_xs _ _ _)

theorem ldVxMem (x : Reg) : Statement (.ldVxMem x) := fun _ => (mask_xs _ _ _)

theorem illegal0 (nnn : Imm12) : Statement (.illegal0 nnn) := fun _ => (mask_z _ _)

theorem illegal5 (x : Reg) (y : Reg) (n : Imm4) : Statement (.illegal5 x y n) := fun _ => (mask_xyn _ _ _ _)

theorem illegal8 (x : Reg) (y : Reg) (n : Imm4) : Statement (.illegal8 x y n) := fun _ => (mask_xyn _ _ _ _)

theorem illegal9 (x : Reg) (y : Reg) (n : Imm4) : Statement (.illegal9 x y n) := fun _ => (mask_xyn _ _ _ _)

theorem illegalE (x : Reg) (nn : Imm8) : Statement (.illegalE x nn) := fun _ => (mask_xk _ _ _)

theorem illegalF (x : Reg) (nn : Imm8) : Statement (.illegalF x nn) := fun _ => (mask_xk _ _ _)

end Sys2Proof.Laws.RowPattern
end

