-- ==== Sys2Proof/Tests/Slice0.lean ====
section
/-! SUPPORT. The model's own tests. Expected values are the spec's: the bit patterns of 30_encoding.md R66, the examples
of the instruction rules and the vectors of 95_test_vectors.md; the witnesses at the end show that the hypotheses of
each statement can be met. -/

namespace Sys2Proof.Tests

open Sys2Proof Sys2Proof.Machine

/-! ## WellFormed: an ill-formed term for each check -/

theorem test_illFormed_illegal0_cls : (Instr.illegal0 0x0E0#12).wellFormed = false := by decide
theorem test_illFormed_illegal0_ret : (Instr.illegal0 0x0EE#12).wellFormed = false := by decide
theorem test_illFormed_illegal5 : (Instr.illegal5 1#4 2#4 0#4).wellFormed = false := by decide
theorem test_illFormed_illegal8 : (Instr.illegal8 1#4 2#4 0xE#4).wellFormed = false := by decide
theorem test_illFormed_illegal9 : (Instr.illegal9 1#4 2#4 0#4).wellFormed = false := by decide
theorem test_illFormed_illegalE_skp : (Instr.illegalE 1#4 0x9E#8).wellFormed = false := by decide
theorem test_illFormed_illegalE_sknp : (Instr.illegalE 1#4 0xA1#8).wellFormed = false := by decide
theorem test_illFormed_illegalF : (Instr.illegalF 1#4 0x06#8).wellFormed = false := by decide
theorem test_wellFormed_illegal8 : (Instr.illegal8 1#4 2#4 0x8#4).wellFormed = true := by decide

/-! ## Decoding: one word per constructor, written bit by bit from the patterns of R66 and R69 -/

theorem test_decode_truncated : decode [0x12#8] = .error .truncated := rfl
theorem test_decode_bytes : decode [0x12#8, 0x34#8, 0x56#8] = .ok (.jp 0x234#12, [0x56#8]) := by rfl

theorem test_decode_cls : decodeTableWord 16 0b0000000011100000 = some (.cls) := by decide
theorem test_decode_ret : decodeTableWord 16 0b0000000011101110 = some (.ret) := by decide
theorem test_decode_jp : decodeTableWord 16 0b0001101010111100 = some (.jp 0xABC#12) := by decide
theorem test_decode_call : decodeTableWord 16 0b0010001000001010 = some (.call 0x20A#12) := by decide
theorem test_decode_seImm : decodeTableWord 16 0b0011000000001010 = some (.seImm 0x0#4 0x0A#8) := by decide
theorem test_decode_sneImm : decodeTableWord 16 0b0100001100000001 = some (.sneImm 0x3#4 0x01#8) := by decide
theorem test_decode_seReg : decodeTableWord 16 0b0101000100100000 = some (.seReg 0x1#4 0x2#4) := by decide
theorem test_decode_ldImm : decodeTableWord 16 0b0110000110011101 = some (.ldImm 0x1#4 0x9D#8) := by decide
theorem test_decode_addImm : decodeTableWord 16 0b0111000000000011 = some (.addImm 0x0#4 0x03#8) := by decide
theorem test_decode_ldReg : decodeTableWord 16 0b1000000100100000 = some (.ldReg 0x1#4 0x2#4) := by decide
theorem test_decode_orReg : decodeTableWord 16 0b1000000100100001 = some (.orReg 0x1#4 0x2#4) := by decide
theorem test_decode_andReg : decodeTableWord 16 0b1000000100100010 = some (.andReg 0x1#4 0x2#4) := by decide
theorem test_decode_xorReg : decodeTableWord 16 0b1000000100100011 = some (.xorReg 0x1#4 0x2#4) := by decide
theorem test_decode_addReg : decodeTableWord 16 0b1000101010110100 = some (.addReg 0xA#4 0xB#4) := by decide
theorem test_decode_sub : decodeTableWord 16 0b1000000100100101 = some (.sub 0x1#4 0x2#4) := by decide
theorem test_decode_shr : decodeTableWord 16 0b1000000100100110 = some (.shr 0x1#4 0x2#4) := by decide
theorem test_decode_subn : decodeTableWord 16 0b1000000100100111 = some (.subn 0x1#4 0x2#4) := by decide
theorem test_decode_shl : decodeTableWord 16 0b1000000100101110 = some (.shl 0x1#4 0x2#4) := by decide
theorem test_decode_sneReg : decodeTableWord 16 0b1001000100100000 = some (.sneReg 0x1#4 0x2#4) := by decide
theorem test_decode_ldI : decodeTableWord 16 0b1010001100000000 = some (.ldI 0x300#12) := by decide
theorem test_decode_jpV0 : decodeTableWord 16 0b1011111111111111 = some (.jpV0 0xFFF#12) := by decide
theorem test_decode_rnd : decodeTableWord 16 0b1100000100001111 = some (.rnd 0x1#4 0x0F#8) := by decide
theorem test_decode_drw : decodeTableWord 16 0b1101000100100101 = some (.drw 0x1#4 0x2#4 0x5#4) := by decide
theorem test_decode_skp : decodeTableWord 16 0b1110001010011110 = some (.skp 0x2#4) := by decide
theorem test_decode_sknp : decodeTableWord 16 0b1110001010100001 = some (.sknp 0x2#4) := by decide
theorem test_decode_ldVxDT : decodeTableWord 16 0b1111010000000110 = some (.ldVxDT 0x4#4) := by decide
theorem test_decode_ldVxK : decodeTableWord 16 0b1111001100001010 = some (.ldVxK 0x3#4) := by decide
theorem test_decode_ldDTVx : decodeTableWord 16 0b1111010000010101 = some (.ldDTVx 0x4#4) := by decide
theorem test_decode_ldSTVx : decodeTableWord 16 0b1111000000011000 = some (.ldSTVx 0x0#4) := by decide
theorem test_decode_addI : decodeTableWord 16 0b1111001000011110 = some (.addI 0x2#4) := by decide
theorem test_decode_ldF : decodeTableWord 16 0b1111111100101001 = some (.ldF 0xF#4) := by decide
theorem test_decode_ldB : decodeTableWord 16 0b1111000000110011 = some (.ldB 0x0#4) := by decide
theorem test_decode_ldMemVx : decodeTableWord 16 0b1111000101010101 = some (.ldMemVx 0x1#4) := by decide
theorem test_decode_ldVxMem : decodeTableWord 16 0b1111011101100101 = some (.ldVxMem 0x7#4) := by decide
theorem test_decode_illegal0 : decodeTableWord 16 0b0000000011100001 = some (.illegal0 0x0E1#12) := by decide
theorem test_decode_illegal5 : decodeTableWord 16 0b0101101010110001 = some (.illegal5 0xA#4 0xB#4 0x1#4) := by decide
theorem test_decode_illegal8 : decodeTableWord 16 0b1000101010111000 = some (.illegal8 0xA#4 0xB#4 0x8#4) := by decide
theorem test_decode_illegal9 : decodeTableWord 16 0b1001000100101111 = some (.illegal9 0x1#4 0x2#4 0xF#4) := by decide
theorem test_decode_illegalE : decodeTableWord 16 0b1110001010011111 = some (.illegalE 0x2#4 0x9F#8) := by decide
theorem test_decode_illegalF : decodeTableWord 16 0b1111000000000111 = some (.illegalF 0x0#4 0x07#8) := by decide

/-! ## One step: vectors of 95_test_vectors.md, `PC` = 0x200 unless said -/

/-- The reset state with a word at 0x200. -/
def at200 (w : Nat) : State := State.reset.withFetchWord 16 w

/-- The reset state with registers set, then a word at 0x200. -/
def withRegs (regs : List (Reg × Byte)) (w : Nat) : State :=
  regs.foldl (fun s r => s.setReg r.1 r.2) (at200 w)

/-- A part of the next state, `none` where the step stops. -/
def after {α : Type} (answer : Answer) (part : State → α) : Option α :=
  match answer with
  | .next s => some (part s)
  | .fault _ => none
  | .refused _ => none

/-- `PC`, `ERR` and `PHASE` of a next state. -/
def control (s : State) : Addr × Nat × Phase := (s.pc, s.errCode, s.phase)

theorem test_cls_clears : after (step (({ at200 0x00E0 with fb := (Vector.replicate 32 0#64).set 5 0x1234#64 } : State))) (fun s => (s.fb[5], s.events)) =
    some (0#64, [.clear]) := by decide
theorem test_ret_pops : after (step { at200 0x00EE with sp := 2#5, stack := (Vector.replicate 16 0#16).set 1 0x0456#16 })
    (fun s => (s.sp, s.pc)) = some (1#5, 0x0456#16) := by decide
theorem test_ret_underflow : after (step (at200 0x00EE)) control = some (0x0202#16, 3, .halted) := by decide
theorem test_jp : after (step (at200 0x1FFE)) control = some (0x0FFE#16, 0, .run) := by decide
theorem test_call_pushes : after (step (at200 0x2ABC)) (fun s => (s.stack[0], s.sp, s.pc)) = some (0x0202#16, 1#5, 0x0ABC#16) := by decide
theorem test_call_overflow : after (step { at200 0x2ABC with sp := 16#5 }) control = some (0x0202#16, 2, .halted) := by decide
theorem test_seImm_skips : after (step (withRegs [(0#4, 0x0A#8)] 0x300A)) control = some (0x0204#16, 0, .run) := by decide
theorem test_seImm_stays : after (step (withRegs [(0#4, 0x09#8)] 0x300A)) control = some (0x0202#16, 0, .run) := by decide
theorem test_sneImm_skips : after (step (withRegs [(3#4, 0x00#8)] 0x4301)) control = some (0x0204#16, 0, .run) := by decide
theorem test_sneImm_stays : after (step (withRegs [(3#4, 0x01#8)] 0x4301)) control = some (0x0202#16, 0, .run) := by decide
theorem test_seReg_skips : after (step (withRegs [(1#4, 7#8), (2#4, 7#8)] 0x5120)) control = some (0x0204#16, 0, .run) := by decide
theorem test_seReg_stays : after (step (withRegs [(1#4, 7#8), (2#4, 8#8)] 0x5120)) control = some (0x0202#16, 0, .run) := by decide
theorem test_sneReg_skips : after (step (withRegs [(1#4, 7#8), (2#4, 8#8)] 0x9120)) control = some (0x0204#16, 0, .run) := by decide
theorem test_sneReg_same : after (step (at200 0x9330)) control = some (0x0202#16, 0, .run) := by decide
theorem test_jpV0_noReduction : after (step (withRegs [(0#4, 0xFF#8)] 0xBFFF)) control = some (0x10FE#16, 0, .run) := by decide
theorem test_ldImm : after (step (at200 0x619D)) (fun s => s.reg 1#4) = some 0x9D#8 := by decide
theorem test_addImm_noFlag : after (step (withRegs [(1#4, 0xFE#8), (0xF#4, 0x55#8)] 0x7103)) (fun s => (s.reg 1#4, s.reg 0xF#4)) =
    some (0x01#8, 0x55#8) := by decide
theorem test_addImm_toFlag : after (step (withRegs [(0xF#4, 0x01#8)] 0x7FFF)) (fun s => s.reg 0xF#4) = some 0x00#8 := by decide
theorem test_ldReg : after (step (withRegs [(1#4, 0x11#8), (2#4, 0x22#8), (0xF#4, 0x55#8)] 0x8120))
    (fun s => (s.reg 1#4, s.reg 2#4, s.reg 0xF#4)) = some (0x22#8, 0x22#8, 0x55#8) := by decide
theorem test_orReg : after (step (withRegs [(1#4, 0xF0#8), (2#4, 0x0F#8), (0xF#4, 0x55#8)] 0x8121))
    (fun s => (s.reg 1#4, s.reg 2#4, s.reg 0xF#4)) = some (0xFF#8, 0x0F#8, 0x55#8) := by decide
theorem test_andReg : after (step (withRegs [(1#4, 0xF0#8), (2#4, 0x3C#8), (0xF#4, 0x55#8)] 0x8122))
    (fun s => (s.reg 1#4, s.reg 2#4, s.reg 0xF#4)) = some (0x30#8, 0x3C#8, 0x55#8) := by decide
theorem test_xorReg : after (step (withRegs [(1#4, 0xF0#8), (2#4, 0x3C#8), (0xF#4, 0x55#8)] 0x8123))
    (fun s => (s.reg 1#4, s.reg 2#4, s.reg 0xF#4)) = some (0xCC#8, 0x3C#8, 0x55#8) := by decide
theorem test_addReg_carry : after (step (withRegs [(1#4, 0xFF#8), (2#4, 0x01#8), (0xF#4, 0x55#8)] 0x8124))
    (fun s => (s.reg 1#4, s.reg 2#4, s.reg 0xF#4)) = some (0x00#8, 0x01#8, 0x01#8) := by decide
theorem test_addReg_x15 : after (step (withRegs [(0xF#4, 0xF0#8), (2#4, 0x20#8)] 0x8F24)) (fun s => s.reg 0xF#4) = some 0x10#8 := by decide
theorem test_sub_borrow : after (step (withRegs [(1#4, 0x03#8), (2#4, 0x05#8), (0xF#4, 0x55#8)] 0x8125))
    (fun s => (s.reg 1#4, s.reg 2#4, s.reg 0xF#4)) = some (0xFE#8, 0x05#8, 0x00#8) := by decide
theorem test_sub_y15 : after (step (withRegs [(1#4, 0x10#8), (0xF#4, 0x05#8)] 0x81F5)) (fun s => (s.reg 1#4, s.reg 0xF#4)) =
    some (0x0F#8, 0x01#8) := by decide
theorem test_shr_bit : after (step (withRegs [(1#4, 0x03#8), (2#4, 0xAA#8), (0xF#4, 0x55#8)] 0x8126))
    (fun s => (s.reg 1#4, s.reg 2#4, s.reg 0xF#4)) = some (0x01#8, 0xAA#8, 0x01#8) := by decide
theorem test_shr_x15 : after (step (withRegs [(0xF#4, 0x03#8)] 0x8F26)) (fun s => s.reg 0xF#4) = some 0x00#8 := by decide
theorem test_subn_equal : after (step (withRegs [(1#4, 0x07#8), (2#4, 0x07#8), (0xF#4, 0x55#8)] 0x8127))
    (fun s => (s.reg 1#4, s.reg 2#4, s.reg 0xF#4)) = some (0x00#8, 0x07#8, 0x00#8) := by decide
theorem test_subn_x15 : after (step (withRegs [(0xF#4, 0x05#8), (2#4, 0x10#8)] 0x8F27)) (fun s => s.reg 0xF#4) = some 0x0F#8 := by decide
theorem test_shl_bit : after (step (withRegs [(1#4, 0x81#8), (2#4, 0xAA#8), (0xF#4, 0x55#8)] 0x812E))
    (fun s => (s.reg 1#4, s.reg 2#4, s.reg 0xF#4)) = some (0x02#8, 0xAA#8, 0x01#8) := by decide
theorem test_shl_x15 : after (step (withRegs [(0xF#4, 0x81#8)] 0x8F2E)) (fun s => s.reg 0xF#4) = some 0x02#8 := by decide
theorem test_ldI : after (step (at200 0xAFFF)) (fun s => s.i) = some 0x0FFF#16 := by decide
theorem test_addI_wraps : after (step ((withRegs [(2#4, 0x01#8)] 0xF21E).setI 0xFFFF#16)) (fun s => (s.i, s.reg 0xF#4)) = some (0x0000#16, 0x00#8) := by decide
theorem test_ldF_digit : after (step (withRegs [(0#4, 0x0F#8)] 0xF029)) (fun s => s.i) = some 0x004B#16 := by decide
theorem test_ldF_invalid : after (step (withRegs [(0#4, 0x10#8)] 0xF029)) control = some (0x0202#16, 5, .halted) := by decide
theorem test_ldB_157 : after (step ((withRegs [(0#4, 0x9D#8)] 0xF033).setI 0x300#16))
    (fun s => (s.mem.read 0x300, s.mem.read 0x301, s.mem.read 0x302)) = some (1#8, 5#8, 7#8) := by decide
theorem test_ldB_noWrap : after (step ((at200 0xF033).setI 0xFFFF#16)) control = some (0x0202#16, 1, .halted) := by decide
theorem test_ldMemVx_order : after (step ((withRegs [(0#4, 0x12#8), (1#4, 0x0A#8)] 0xF155).setI 0x208#16))
    (fun s => (s.mem.read 0x208, s.mem.read 0x209, s.i)) = some (0x12#8, 0x0A#8, 0x208#16) := by decide
theorem test_ldMemVx_bound : after (step ((at200 0xFF55).setI 0x0FF0#16)) control = some (0x0202#16, 1, .halted) := by decide
theorem test_ldVxMem_font : after (step (at200 0xF465)) (fun s => (s.reg 0#4, s.reg 1#4, s.reg 4#4, s.reg 5#4)) =
    some (0xF0#8, 0x90#8, 0xF0#8, 0x00#8) := by decide
theorem test_ldVxMem_bound : after (step ((at200 0xFF65).setI 0x0FF0#16)) control = some (0x0202#16, 1, .halted) := by decide
theorem test_drw_digit0 : after (step (withRegs [(0#4, 4#8), (1#4, 2#8)] 0xD015)) (fun s => (s.fb[2], s.fb[3], s.fb[6], s.fb[7], s.reg 0xF#4)) =
    some (0xF00#64, 0x900#64, 0xF00#64, 0#64, 0#8) := by decide
theorem test_drw_clips : after (step (withRegs [(1#4, 0x1E#8)] 0xD015)) (fun s => (s.fb[0], s.events)) =
    some (0#64, [.regionUpdated [(30, 0xF0#64), (31, 0x90#64)]]) := by decide
theorem test_rnd_mask (h : Config.drawByte 0 = 0xB7#8) :
    after (step (at200 0xC10F)) (fun s => s.reg 1#4) = some 0x07#8 :=
  (show _ = some (Config.drawByte 0 &&& 0x0F#8) from rfl).trans (by rw [h]; rfl)
theorem test_skp_down (h : Config.keyDown 0 0x05#8 = true) :
    after (step (withRegs [(2#4, 0x05#8)] 0xE29E)) (fun s => s.pc) = some 0x0204#16 :=
  (show _ = some (if Config.keyDown 0 0x05#8 then 0x0204#16 else 0x0202#16) from rfl).trans (by rw [h]; rfl)
theorem test_sknp_down (h : Config.keyDown 0 0x05#8 = true) :
    after (step (withRegs [(2#4, 0x05#8)] 0xE2A1)) (fun s => s.pc) = some 0x0202#16 :=
  (show _ = some (if !Config.keyDown 0 0x05#8 then 0x0204#16 else 0x0202#16) from rfl).trans (by rw [h]; rfl)
theorem test_ldVxDT : after (step ((at200 0xF406).setDt 0x3C#8)) (fun s => s.reg 4#4) = some 0x3C#8 := by decide
theorem test_ldVxK_waits : after (step (at200 0xF30A)) control = some (0x0202#16, 0, .waitKey 3#4) := by decide
theorem test_keyPress_completes : after (step { State.reset with phase := .waitKey 3#4, schedule := [.keyPress 0xB#4] })
    (fun s => (s.reg 3#4, s.phase)) = some (0x0B#8, .run) := by decide
theorem test_ldDTVx : after (step (withRegs [(4#4, 0x3C#8)] 0xF415)) (fun s => s.dt) = some 0x3C#8 := by decide
theorem test_ldSTVx : after (step (withRegs [(0#4, 0x05#8)] 0xF018)) (fun s => s.st) = some 0x05#8 := by decide
theorem test_illegal0 : after (step (at200 0x0000)) control = some (0x0202#16, 6, .halted) := by decide
theorem test_illegal5 : after (step (at200 0x5121)) control = some (0x0202#16, 4, .halted) := by decide
theorem test_illegal8 : after (step (at200 0x8128)) control = some (0x0202#16, 4, .halted) := by decide
theorem test_illegal9 : after (step (at200 0x912F)) control = some (0x0202#16, 4, .halted) := by decide
theorem test_illegalE : after (step (at200 0xE29F)) control = some (0x0202#16, 6, .halted) := by decide
theorem test_illegalF : after (step (at200 0xF407)) control = some (0x0202#16, 6, .halted) := by decide
theorem test_fetch_highest : after (step { State.reset with pc := 0x0FFD#16, mem := Memory.writeBytes [] 0xFFD [0x00#8, 0xE0#8] }) control =
    some (0x0FFF#16, 0, .run) := by decide
theorem test_fetch_fault : after (step { State.reset with pc := 0x0FFE#16 }) control = some (0x0FFE#16, 1, .halted) := by decide
theorem test_fetch_odd : after (step { State.reset with pc := 0x0201#16, mem := Memory.writeBytes [] 0x201 [0x61#8, 0x07#8] })
    (fun s => (s.reg 1#4, s.pc)) = some (0x07#8, 0x0203#16) := by decide
theorem test_tick : after (step { State.reset with dt := 2#8, st := 0#8, schedule := [.tick] }) (fun s => (s.dt, s.st)) = some (1#8, 0#8) := by decide
theorem test_tick_halted : after (step { State.reset with dt := 2#8, phase := .halted, schedule := [.tick] }) (fun s => s.dt) = some 2#8 := by decide
theorem test_reset_image : after (step { State.reset with pc := 5#16, schedule := [.reset ⟨[0x12#8, 0x34#8], by decide⟩] })
    (fun s => (s.pc, s.fetchWord, s.mem.read 0)) = some (0x0200#16, 0x1234#16, 0xF0#8) := by decide
theorem test_place_edge : place 0x81#8 57#8 = 0x0200000000000000#64 ∧ place 0xF0#8 255#8 = 0#64 ∧ place 0xFF#8 63#8 = 0x8000000000000000#64 := by decide
theorem test_withFetchWord_any : decodeWord ({ State.reset with pc := 0xFFFF#16 }.withFetchWord 16 0x619D).fetchWord = .ldImm 1#4 0x9D#8 := by decide
theorem test_reset_mem_wf : State.reset.mem.wf := by decide


/-! ## Witnesses: states and operands that meet the hypotheses of each statement, one per clause and at the boundaries.
A statement that is not named here has no hypotheses: it completes in every state. -/

theorem witness_DecodeOfEncodeIsIdentity : (Instr.illegalF 0xF#4 0xFF#8).wellFormed = true ∧ (Instr.drw 0xF#4 0#4 0xF#4).wellFormed = true := by
  decide

theorem witness_IllegalWordsHalt_kind : wordError (0x5AB1#16).toNat = some .invalidEncoding ∧
    wordError (0x00EF#16).toNat = some .unsupportedInstruction ∧ wordError (0x8AB8#16).toNat = some .invalidEncoding ∧
    wordError (0x912F#16).toNat = some .invalidEncoding ∧ wordError (0xE19F#16).toNat = some .unsupportedInstruction ∧
    wordError (0xF007#16).toNat = some .unsupportedInstruction := by decide
theorem witness_IllegalWordsHalt_none : wordError (0x5AB0#16).toNat = none ∧ wordError (0x00EE#16).toNat = none ∧
    wordError (0x8ABE#16).toNat = none ∧ wordError (0xE1A1#16).toNat = none ∧ wordError (0xF065#16).toNat = none := by decide

/-- Running states with `PC` at either side of the fetch check. -/
def pcAt (a : Addr) : State := { State.reset with pc := a }
theorem witness_StepRunsDecodedInstruction_fault : (pcAt 0x0FFE#16).Running ∧ (pcAt 0x0FFE#16).pc.toNat + 2 > 0xFFF := by
  exact ⟨⟨rfl, rfl⟩, by decide⟩
theorem witness_StepRunsDecodedInstruction_run : (pcAt 0x0FFD#16).Running ∧ (pcAt 0x0FFD#16).pc.toNat + 2 ≤ 0xFFF ∧
    decode [(pcAt 0x0FFD#16).mem.read 0xFFD, (pcAt 0x0FFD#16).mem.read 0xFFE] = .ok (.illegal0 0#12, []) := by
  exact ⟨⟨rfl, rfl⟩, by decide, rfl⟩

/-- A state in a phase with a schedule. -/
def inPhase (p : Phase) (e : Option ErrorKind) (moves : List Move) : State := { State.reset with phase := p, err := e, schedule := moves }
theorem witness_TransitionTable_tick : (inPhase (.waitKey 3#4) none [.tick, .tick]).phase ≠ .halted ∧
    (inPhase (.waitKey 3#4) none [.tick, .tick]).schedule = .tick :: [.tick] ∧
    (inPhase .run none [.tick]).phase ≠ .halted ∧ (inPhase .run none [.tick]).schedule = .tick :: [] := by decide
theorem witness_TransitionTable_keyPress : (inPhase .run none [.keyPress 0#4]).phase = .run ∧
    (inPhase .run none [.keyPress 0#4]).schedule = .keyPress 0#4 :: [] ∧
    (inPhase (.waitKey 0xF#4) none [.keyPress 0xF#4]).phase = .waitKey 0xF#4 ∧
    (inPhase (.waitKey 0xF#4) none [.keyPress 0xF#4]).schedule = .keyPress 0xF#4 :: [] := by decide
theorem witness_TransitionTable_waits : (inPhase (.waitKey 0#4) none []).phase = .waitKey 0#4 ∧
    offersInstruction (inPhase (.waitKey 0#4) none []).schedule = true ∧
    offersInstruction (inPhase (.waitKey 0#4) none [.instruction]).schedule = true := by decide
theorem witness_TransitionTable_halted : (inPhase .halted (some .invalidDigit) [.keyPress 1#4]).phase = .halted ∧
    ∀ image, (inPhase .halted (some .invalidDigit) [.keyPress 1#4]).schedule.head? ≠ some (.reset image) := by
  exact ⟨rfl, fun _ h => nomatch h⟩
theorem witness_HaltedStaysHalted : (inPhase .halted (some .addressFault) [.tick, .keyPress 1#4, .instruction]).phase = .halted ∧
    ∀ image, Move.reset image ∉ (inPhase .halted (some .addressFault) [.tick, .keyPress 1#4, .instruction]).schedule := by
  exact ⟨rfl, fun _ h => by simp [inPhase] at h⟩
theorem witness_ResetLoadsImage : (inPhase .halted (some .addressFault) [.reset ⟨[0x12#8], by decide⟩, .tick]).schedule =
    .reset ⟨[0x12#8], by decide⟩ :: [.tick] := rfl
theorem witness_ResetLoadsImage_bytes : (⟨[0x12#8], by decide⟩ : Image).bytes[0]? = some 0x12#8 ∧ font[79]? = some 0x80#8 := by decide

/-- A consistent state with a full stack; its next step overflows it. -/
def fullStack : State := { at200 0x2FFF with sp := 16#5, stack := Vector.replicate 16 0x0FFF#16 }
theorem fullStack_mem_wf : fullStack.mem.wf := by decide
theorem fullStack_consistent : fullStack.Consistent := by exact ⟨by decide, by decide, fullStack_mem_wf⟩
theorem witness_StepKeepsConsistent : ∃ t, fullStack.Consistent ∧ step fullStack = .next t := ⟨_, fullStack_consistent, rfl⟩
theorem witness_StepKeepsPcBounded : ∃ t, fullStack.PcBounded ∧ step fullStack = .next t :=
  ⟨_, ⟨by decide, by decide, fun k h a e => by
    have : k < 16 := h
    simp [fullStack, this] at e
    simp [← e]⟩, rfl⟩
theorem witness_StepKeepsPcBounded_edge : ∃ t, (pcAt 0x10FE#16).PcBounded ∧ step (pcAt 0x10FE#16) = .next t :=
  ⟨_, ⟨by decide, by decide, fun k h => absurd h (Nat.not_lt_zero k)⟩, rfl⟩
theorem witness_StepKeepsReplay : ∃ t, (at200 0xD005).Replayed ∧ step (at200 0xD005) = .next t := ⟨_, rfl, rfl⟩
theorem witness_ByteFFFIsUnobservable : fullStack.Consistent ∧ ∀ image, fullStack.schedule.head? ≠ some (.reset image) :=
  ⟨fullStack_consistent, fun _ h => nomatch h⟩
theorem witness_NoStepStops : fullStack.sp.toNat ≤ 16 ∧ State.reset.sp.toNat ≤ 16 := by decide

theorem witness_ErrorsAreExact_some : fullStack.Running ∧ fullStack.pc.toNat + 2 ≤ 0xFFF ∧ fullStack.sp.toNat ≤ 16 ∧
    executeError (decodeWord fullStack.fetchWord) fullStack.started = some .stackOverflow := by
  exact ⟨⟨rfl, rfl⟩, by decide, by decide, by decide⟩
/-- FF33 in bounds at its highest `I`. -/
def storesAtTop : State := (at200 0xFF33).setI 0xFFC#16
theorem witness_ErrorsAreExact_none : storesAtTop.Running ∧ storesAtTop.pc.toNat + 2 ≤ 0xFFF ∧ storesAtTop.sp.toNat ≤ 16 ∧
    executeError (decodeWord storesAtTop.fetchWord) storesAtTop.started = none := by
  exact ⟨⟨rfl, rfl⟩, by decide, by decide, by decide⟩
theorem witness_executeError_bounds : executeError (.ldB 0#4) (State.reset.setI 0xFFC#16) = none ∧
    executeError (.ldB 0#4) (State.reset.setI 0xFFD#16) = some .addressFault ∧
    executeError (.ldVxMem 0xF#4) (State.reset.setI 0xFEF#16) = none ∧
    executeError (.ldVxMem 0xF#4) (State.reset.setI 0xFF0#16) = some .addressFault ∧
    executeError (.ldF 0#4) (State.reset.setReg 0#4 15#8) = none ∧
    executeError (.ldF 0#4) (State.reset.setReg 0#4 16#8) = some .invalidDigit ∧
    executeError .ret (State.reset.setSp 1#5) = none ∧ executeError (.call 0#12) (State.reset.setSp 15#5) = none := by decide
theorem witness_PcTable_exec : ∃ t, exec (.jpV0 0xFFF#12) (State.reset.setReg 0#4 0xFF#8) = .next t := ⟨_, rfl⟩
theorem witness_PcTable_fetch : ∃ t, (pcAt 0x0FFE#16).Running ∧ (pcAt 0x0FFE#16).pc.toNat + 2 > 0xFFF ∧ step (pcAt 0x0FFE#16) = .next t :=
  ⟨_, ⟨rfl, rfl⟩, by decide, rfl⟩
theorem witness_PcTable_keyPress : ∃ t, (inPhase (.waitKey 3#4) none [.keyPress 0xB#4]).phase = .waitKey 3#4 ∧
    (inPhase (.waitKey 3#4) none [.keyPress 0xB#4]).schedule.head? = some (.keyPress 0xB#4) ∧
    step (inPhase (.waitKey 3#4) none [.keyPress 0xB#4]) = .next t := ⟨_, rfl, rfl, rfl⟩
theorem witness_PcTable_halted : ∃ t, (inPhase .halted (some .invalidDigit) [.tick]).phase = .halted ∧
    (∀ image, (inPhase .halted (some .invalidDigit) [.tick]).schedule.head? ≠ some (.reset image)) ∧
    step (inPhase .halted (some .invalidDigit) [.tick]) = .next t := ⟨_, rfl, (fun _ h => nomatch h), rfl⟩
theorem witness_FlagWriters_none : ∃ t, exec (.ldReg 0xE#4 0xF#4) State.reset = .next t ∧
    flagWriter (.ldReg 0xE#4 0xF#4) = none ∧ writesReg (.ldReg 0xE#4 0xF#4) VF = false := ⟨_, rfl, rfl, rfl⟩
theorem witness_FlagWriters_alu : ∃ t, exec (.shl 0xE#4 0xF#4) State.reset = .next t ∧
    flagWriter (.shl 0xE#4 0xF#4) = some (some 0xE#4) ∧ 0xE#4 ≠ VF := ⟨_, rfl, rfl, by decide⟩
theorem witness_FlagWriters_drw : ∃ t, exec (.drw 0#4 0#4 5#4) State.reset = .next t ∧ flagWriter (.drw 0#4 0#4 5#4) = some none :=
  ⟨_, rfl, rfl⟩
theorem witness_RegisterReadsAndWrites_kept : readsReg (.shl 1#4 2#4) 2#4 = false ∧ writesReg (.shl 1#4 2#4) 2#4 = false := by decide
theorem witness_RegisterReadsAndWrites_written : ∃ t, readsReg (.sub 1#4 2#4) VF = false ∧ writesReg (.sub 1#4 2#4) VF = true ∧
    State.reset.phase = .run ∧ exec (.sub 1#4 2#4) State.reset = .next t ∧ t.phase ≠ .halted := ⟨_, rfl, rfl, rfl, rfl, by decide⟩
theorem witness_OnlyNamedInstructionsWrite_index : ∃ t, exec (.ldI 0x300#12) State.reset = .next t ∧ t.i ≠ State.reset.i := ⟨_, rfl, by decide⟩
theorem witness_OnlyNamedInstructionsWrite_timers : ∃ t u, exec (.ldDTVx 1#4) (State.reset.setReg 1#4 5#8) = .next t ∧ t.dt ≠ State.reset.dt ∧
    exec (.ldSTVx 1#4) (State.reset.setReg 1#4 5#8) = .next u ∧ u.st ≠ State.reset.st := ⟨_, _, rfl, by decide, rfl, by decide⟩
theorem witness_OnlyNamedInstructionsWrite_stack : ∃ t, exec (.call 0x300#12) State.reset = .next t ∧ t.sp ≠ State.reset.sp ∧
    t.stack ≠ State.reset.stack := ⟨_, rfl, by decide, by decide⟩
theorem witness_OnlyNamedInstructionsWrite_display : ∃ t, exec (.drw 0#4 0#4 1#4) State.reset = .next t ∧ t.fb ≠ State.reset.fb ∧
    t.events ≠ State.reset.events := ⟨_, rfl, by decide, by decide⟩
theorem witness_OnlyNamedInstructionsWrite_memory : ∃ t, exec (.ldB 0#4) State.reset = .next t ∧ t.mem ≠ State.reset.mem :=
  ⟨_, rfl, by decide⟩
theorem witness_OnlyNamedInstructionsWrite_answers : ∃ t, exec (.rnd 0#4 0#8) State.reset = .next t ∧ t.answers ≠ State.reset.answers :=
  ⟨_, rfl, Nat.one_ne_zero⟩

theorem witness_ReturnPopsOrUnderflows : State.reset.sp.toNat = 0 ∧ 0 < fullStack.sp.toNat ∧ fullStack.sp.toNat ≤ 16 ∧
    0 < (State.reset.setSp 1#5).sp.toNat ∧ (State.reset.setSp 1#5).sp.toNat ≤ 16 := by decide
theorem witness_CallPushesOrOverflows : (State.reset.setSp 15#5).sp.toNat < 16 ∧ 16 ≤ fullStack.sp.toNat := by decide
theorem witness_SixteenCallsNest : State.reset.sp.toNat = 0 ∧ (List.replicate 16 0x300#12).length = 16 ∧ State.reset.sp.toNat < 16 := by
  decide
theorem witness_SixteenCallsNest_step : ∃ t, fullStack.sp.toNat ≤ 16 ∧ step fullStack = .next t := ⟨_, by decide, rfl⟩
theorem witness_AddWithCarryOut : 0#4 ≠ VF := by decide
theorem witness_SubtractStrictFlag : 0xE#4 ≠ VF ∧ 0#4 ≠ VF ∧ VF = 0xF#4 ∧ (State.reset.reg 0xE#4).toNat = 0 ∧
    (State.reset.reg VF).toNat = 0 ∧ (0 = if 0 > 0 then 1 else 0) := by decide
theorem witness_ReverseSubtractStrictFlag : ((withRegs [(1#4, 3#8), (2#4, 5#8)] 0x8127).reg 1#4).toNat = 3 ∧
    ((withRegs [(1#4, 3#8), (2#4, 5#8)] 0x8127).reg 2#4).toNat = 5 ∧ (1 = if 5 > 3 then 1 else 0) ∧
    1#4 ≠ VF ∧ 2#4 ≠ VF ∧ 0xF#4 = VF := by decide
theorem witness_ShiftsMoveBitToFlag : 0xE#4 ≠ VF ∧ 0xF#4 = VF := by decide
theorem witness_LoadIndexAndDigitAddress : ((State.reset.setReg 0xF#4 15#8).reg 0xF#4).toNat < 16 ∧
    16 ≤ ((State.reset.setReg 0xF#4 16#8).reg 0xF#4).toNat := by decide
theorem witness_StoresDecimalDigits : (State.reset.setI 0xFFC#16).i.toNat + 2 ≤ memLast ∧
    (State.reset.setI 0xFFD#16).i.toNat + 2 > memLast := by decide
theorem witness_StoresRegisterBlock : (State.reset.setI 0xFEF#16).i.toNat + (0xF#4).toNat ≤ memLast ∧
    (State.reset.setI 0xFF0#16).i.toNat + (0xF#4).toNat > memLast ∧ (0xF#4 : Reg).toNat ≤ (0xF#4).toNat := by decide
theorem witness_LoadsRegisterBlock : (State.reset.setI 0xFFE#16).i.toNat + (0#4).toNat ≤ memLast ∧
    (State.reset.setI 0xFFF#16).i.toNat + (0#4).toNat > memLast := by decide
theorem witness_LoadsRegisterBlock_roundTrip : ∃ t, exec (.ldMemVx 1#4) (State.reset.setI 0x300#16) = .next t ∧
    ({ State.reset with i := 0x300#16, mem := t.mem } : State).i = (State.reset.setI 0x300#16).i ∧
    ({ State.reset with i := 0x300#16, mem := t.mem } : State).mem = t.mem := ⟨_, rfl, rfl, rfl⟩
theorem witness_StoresReachTheNextFetch : (State.reset.setI 0x200#16).Running ∧ 1 ≤ (1#4).toNat ∧
    (State.reset.setI 0x200#16).i = (State.reset.setI 0x200#16).pc ∧ (State.reset.setI 0x200#16).pc.toNat + 2 ≤ 0xFFF ∧
    (State.reset.setI 0x200#16).i.toNat + (1#4).toNat ≤ 0xFFE := by
  exact ⟨⟨rfl, rfl⟩, by decide, rfl, by decide, by decide⟩
theorem witness_DrawXorsRows_nothing : rowsDrawn (State.reset.setI 0xFFFF#16) 0#4 0#4 = 0 ∧
    rowsDrawn (State.reset.setReg 1#4 32#8) 1#4 0xF#4 = 0 := by decide
theorem witness_DrawXorsRows_inside : 0 < rowsDrawn (State.reset.setI 0xFFE#16) 0#4 1#4 ∧
    (State.reset.setI 0xFFE#16).i.toNat + rowsDrawn (State.reset.setI 0xFFE#16) 0#4 1#4 - 1 ≤ 0xFFE := by decide
theorem witness_DrawXorsRows_outside : 0 < rowsDrawn (State.reset.setI 0xFFE#16) 0#4 2#4 ∧
    (State.reset.setI 0xFFE#16).i.toNat + rowsDrawn (State.reset.setI 0xFFE#16) 0#4 2#4 - 1 > 0xFFE := by decide
/-- Row 0 holds the first row of digit 0 already, so drawing it again collides; on the clear screen nothing does. -/
theorem witness_DrawXorsRows_flag : State.reset.fb[0] &&& spriteRow State.reset 0#8 0 0 = 0#64 ∧
    ({ State.reset with fb := State.reset.fb.set 0 0xF0#64 } : State).fb[0] &&& spriteRow State.reset 0#8 0 0 ≠ 0#64 := by decide
theorem witness_PlacePutsBits : (63 : Nat) < 64 := by decide
theorem witness_DrawTwiceRestores : 0xE#4 ≠ VF ∧ 0#4 ≠ VF ∧ State.reset.i.toNat + rowsDrawn State.reset 0#4 5#4 - 1 ≤ 0xFFE ∧
    spriteRow State.reset (State.reset.reg 0xE#4) 0 0 &&& ~~~ State.reset.fb[0] ≠ 0#64 := by decide
/-- Whatever the environment answers, it meets one of the two clauses of each key skip. -/
theorem witness_KeySkips (key : Byte) : Config.keyDown 0 key = true ∨ Config.keyDown 0 key = false := by
  cases Config.keyDown 0 key <;> simp
theorem witness_TimerWrites : ∀ x, Instr.ldDTVx 0xF#4 ≠ .ldSTVx x := by decide

end Sys2Proof.Tests
end

section
/-! Proof of the encoding statement O4: the fields of a word as mask-and-shift formulas (30_encoding.md R61) and the
equations between overlapping fields (R62). -/

namespace Sys2Proof

/-- The shape of all six formulas of R61: `len` bits from bit `start` up are a shift by `start` and a mask of `len` ones. -/
theorem extractLsb'_toNat_eq_shift_and_mask (w : Word) (start len : Nat) :
    (w.extractLsb' start len).toNat = (w.toNat >>> start) &&& (2 ^ len - 1) := by
  rw [BitVec.extractLsb'_toNat, Nat.and_two_pow_sub_one_eq_mod]

/-- The bits of `nn` are those of `y` above those of `n` (R62). -/
theorem nnField_toNat_eq_y_n (w : Word) : (nnField w).toNat = (yField w).toNat * 16 + (nField w).toNat := by
  rw [nnField_toNat, yField_toNat, nField_toNat]
  omega

/-- The bits of `nnn` are those of `x` above those of `nn` (R62). -/
theorem nnnField_toNat_eq_x_nn (w : Word) : (nnnField w).toNat = (xField w).toNat * 256 + (nnField w).toNat := by
  rw [nnnField_toNat, xField_toNat, nnField_toNat]
  omega

/-- No bit lies above the opcode: a word has 16 bits, so the modulus of `opcodeField_toNat` takes nothing away (R62). -/
theorem word_toNat_eq_opcode_nnn (w : Word) : w.toNat = (opcodeField w).toNat * 4096 + (nnnField w).toNat := by
  have bound := w.isLt
  rw [opcodeField_toNat, nnnField_toNat]
  omega

/-- Settles O4: each field is one extraction, whose number is a shift and a mask, and the overlaps are equations of
quotients and remainders of the word by powers of 16. -/
theorem fieldsAreMaskAndShift : Obligations.FieldsAreMaskAndShift := by
  intro w
  have mask := extractLsb'_toNat_eq_shift_and_mask w
  exact ⟨mask 12 4, mask 8 4, mask 4 4, mask 0 4, mask 0 8, mask 0 12,
    nnField_toNat_eq_y_n w, nnnField_toNat_eq_x_nn w, word_toNat_eq_opcode_nnn w⟩

end Sys2Proof
end

section
/-! Proof of the dispatcher statement O7: what an instruction step offered in `RUN` fetches and runs (40_dispatcher.md
R91, R93, R98), with the word at `PC` and the advanced `PC` as numbers. -/

namespace Sys2Proof

/-- The word of two bytes as a number, high byte first (R46). -/
theorem wordOfBytes_eq_ofNat (hi lo : Byte) : wordOfBytes hi lo = BitVec.ofNat 16 (hi.toNat * 256 + lo.toNat) := by
  have value : (wordOfBytes hi lo).toNat = hi.toNat * 256 + lo.toNat := append_toNat hi lo
  rw [← value, BitVec.ofNat_toNat, BitVec.setWidth_eq]

theorem decode_pair (hi lo : Byte) : decode [hi, lo] = .ok (decodeWord (wordOfBytes hi lo), []) := rfl

namespace Machine

/-- Decoding the two bytes at `PC` is decoding the word that a step fetches. -/
theorem decode_bytesAtPc (s : State) :
    decode [s.mem.read s.pc.toNat, s.mem.read (s.pc.toNat + 1)] = .ok (decodeWord s.fetchWord, []) :=
  decode_pair _ _

/-- The addition of two bit vectors is the sum of the numbers modulo 65536 (R8, D4). -/
theorem addr_add_two_eq_ofNat (a : Addr) : a + 2#16 = BitVec.ofNat 16 ((a.toNat + 2) % 65536) :=
  BitVec.eq_of_toNat_eq (by rw [BitVec.toNat_add, BitVec.toNat_ofNat, BitVec.toNat_ofNat]; omega)

/-- The state that `exec` starts from, with its `PC` as a number. -/
theorem State.started_eq_ofNat (s : State) :
    s.started = { s with pc := BitVec.ofNat 16 ((s.pc.toNat + 2) % 65536), schedule := s.schedule.tail } := by
  rw [← addr_add_two_eq_ofNat]; rfl

theorem State.canFetch_eq_false_iff (s : State) : s.canFetch = false ↔ s.pc.toNat + 2 > 0xFFF := by
  rw [← Bool.not_eq_true, State.canFetch_iff, Nat.not_le]

end Machine

/-- Settles O7: the fetch check decides between the two equations of `transition` for a running state; the bytes at `PC`
decode to the one instruction of the fetched word, so the instruction that the third clause speaks of is that one. -/
theorem stepRunsDecodedInstruction : Obligations.StepRunsDecodedInstruction := by
  intro s running
  refine ⟨fun outside => ?_, ?_, fun inside i decoded => ?_⟩
  · exact Machine.transition_of_fetchFault running (s.canFetch_eq_false_iff.mpr outside)
  · rw [decode_pair, wordOfBytes_eq_ofNat]
  · have same : decodeWord s.fetchWord = i := by
      rw [Machine.decode_bytesAtPc] at decoded
      injection decoded with decoded
      exact congrArg Prod.fst decoded
    calc Machine.step s
        = Machine.exec (decodeWord s.fetchWord) s.started :=
          Machine.transition_of_running running (s.canFetch_iff.mpr inside)
      _ = _ := by rw [same, s.started_eq_ofNat]

end Sys2Proof
end

section
/-! What the state's single writes leave unchanged, as `Keeps` lemmas for any footprint that allows the write, and how
footprints compose: the frame of an instruction is read off the writes its rule is made of. -/

namespace Sys2Proof.Machine

/-- Two changes inside one footprint are one change inside it. -/
theorem Keeps.trans {f : Footprint} {s t u : State} (first : Keeps f s t) (second : Keeps f t u) : Keeps f s u := by
  obtain ⟨reg, entry, byte, i, pc, dt, st, sp, fb, err, phase, events, schedule, answers⟩ := first
  obtain ⟨reg', entry', byte', i', pc', dt', st', sp', fb', err', phase', events', schedule', answers'⟩ := second
  exact ⟨fun k h => (reg' k h).trans (reg k h), fun k h => (entry' k h).trans (entry k h),
    fun a h => (byte' a h).trans (byte a h), fun h => (i' h).trans (i h), fun h => (pc' h).trans (pc h),
    fun h => (dt' h).trans (dt h), fun h => (st' h).trans (st h), fun h => (sp' h).trans (sp h),
    fun h => (fb' h).trans (fb h), fun h => (err' h).trans (err h), fun h w => (phase' h w).trans (phase h w),
    fun h => (events' h).trans (events h), fun h => (schedule' h).trans (schedule h),
    fun h => (answers' h).trans (answers h)⟩

section
variable {f : Footprint} (s : State)

theorem keeps_setPc (allowed : f.pc = true) (a : Addr) : Keeps f s (s.setPc a) := by simp [Keeps, allowed]

theorem keeps_setSp (allowed : f.sp = true) (n : BitVec 5) : Keeps f s (s.setSp n) := by simp [Keeps, allowed]

/-- Only the entry written can differ. -/
theorem keeps_setEntry {k : Nat} (allowed : k ∈ f.entries) (a : Addr) : Keeps f s (s.setEntry k a) := by
  have others : ∀ j, j ∉ f.entries → (s.setEntry k a).stack[j]? = s.stack[j]? := fun j outside =>
    Vector.getElem?_setIfInBounds_ne fun same => outside (same ▸ allowed)
  exact ⟨fun _ _ => rfl, others, by simp⟩

/-- An error changes `PHASE` and `ERR` only (R201). -/
theorem keeps_haltedWith (allowed : f.halts = true) (kind : ErrorKind) : Keeps f s (s.haltedWith kind) := by
  simp [Keeps, allowed]

theorem keeps_skipIf (allowed : f.pc = true) (c : Bool) : Keeps f s (s.skipIf c) := keeps_setPc s allowed _

end

end Sys2Proof.Machine
end

section
/-! Proofs of the control-transfer statements O22, O23, O24 and O26 (41_control_transfer.md R100 to R104, R107). -/

namespace Sys2Proof

/-! ## The words of the jumps (R66) -/

theorem decodeWord_jp (nnn : Imm12) : decodeWord (0x1#4 ++ nnn) = .jp nnn := by
  obtain ⟨opcode, operand⟩ := fieldsA 0x1#4 nnn
  simp [decodeWord, opcode, operand]

theorem decodeWord_call (nnn : Imm12) : decodeWord (0x2#4 ++ nnn) = .call nnn := by
  obtain ⟨opcode, operand⟩ := fieldsA 0x2#4 nnn
  simp [decodeWord, opcode, operand]

theorem decodeWord_jpV0 (nnn : Imm12) : decodeWord (0xB#4 ++ nnn) = .jpV0 nnn := by
  obtain ⟨opcode, operand⟩ := fieldsA 0xB#4 nnn
  simp [decodeWord, opcode, operand]

namespace Machine

/-! ## Return -/

/-- Settles O22: the two equations of `exec` for RET, with an empty stack and with 1 to 16 entries. -/
theorem returnPopsOrUnderflows : Obligations.ReturnPopsOrUnderflows := by
  refine ⟨rfl, fun s => ⟨fun empty => ?_, fun low high => ?_⟩⟩
  · exact ⟨_, exec_ret_underflow empty, rfl, rfl, keeps_haltedWith s rfl _⟩
  · have inside : s.sp.toNat - 1 < 16 := by omega
    have popped : (s.sp - 1#5).toNat = s.sp.toNat - 1 := BitVec.toNat_sub_of_le (BitVec.le_def.mpr low)
    exact ⟨_, exec_ret_pop low high, popped, Vector.getElem?_eq_getElem inside,
      (keeps_setSp s rfl _).trans (keeps_setPc _ rfl _)⟩

/-! ## Jumps -/

/-- The target of `JP V0, nnn` is at most 0xFF + 0xFFF = 0x10FE, so the 16-bit sum is the sum of the numbers (R107). -/
theorem offsetTarget_toNat (b : Byte) (nnn : Imm12) : (wide b + addrOf nnn).toNat = b.toNat + nnn.toNat := by
  have := b.isLt
  have := nnn.isLt
  rw [BitVec.toNat_add, wide_toNat, addrOf_toNat]
  omega

/-- Settles O23: both rules are one write of `PC`, whose value is the operand, or the sum that needs no reduction. -/
theorem jumpsSetPc : Obligations.JumpsSetPc := by
  intro nnn s
  refine ⟨⟨decodeWord_jp nnn, decodeWord_jpV0 nnn⟩, ?_, ?_⟩
  · exact ⟨_, rfl, addrOf_toNat nnn, keeps_setPc s rfl _⟩
  · exact ⟨_, rfl, offsetTarget_toNat (s.reg 0#4) nnn, keeps_setPc s rfl _⟩

/-! ## Call -/

/-- Settles O24: the two equations of `exec` for CALL, with room on the stack and with none. -/
theorem callPushesOrOverflows : Obligations.CallPushesOrOverflows := by
  intro nnn s
  refine ⟨decodeWord_call nnn, fun room => ?_, fun full => ?_⟩
  · have pushed : (s.stack.setIfInBounds s.sp.toNat s.pc)[s.sp.toNat]? = some s.pc :=
      Vector.getElem?_setIfInBounds_self_of_lt room
    have counted : (s.sp + 1#5).toNat = s.sp.toNat + 1 := by
      rw [BitVec.toNat_add, BitVec.toNat_ofNat]
      omega
    have frame : Keeps { entries := [s.sp.toNat], sp := true, pc := true } s
        (((s.setEntry s.sp.toNat s.pc).setSp (s.sp + 1#5)).setPc (addrOf nnn)) :=
      ((keeps_setEntry s (List.mem_singleton_self _) _).trans (keeps_setSp _ rfl _)).trans (keeps_setPc _ rfl _)
    exact ⟨_, exec_call_push room nnn, pushed, counted, addrOf_toNat nnn, frame⟩
  · exact ⟨_, exec_call_overflow full nnn, rfl, rfl, keeps_haltedWith s rfl _⟩

/-! ## Skips -/

/-- A skip moves `PC` on by 2 modulo 65536 (R8, D4). -/
theorem State.skipIf_pc_toNat (s : State) (c : Bool) :
    (s.skipIf c).pc.toNat = if c then (s.pc.toNat + 2) % 65536 else s.pc.toNat := by
  cases c <;> rfl

/-- The skip on equal bytes, the bytes compared as numbers. -/
theorem State.skipIf_beq_pc_toNat (s : State) (a b : Byte) :
    (s.skipIf (a == b)).pc.toNat = if a.toNat = b.toNat then (s.pc.toNat + 2) % 65536 else s.pc.toNat := by
  simp only [State.skipIf_pc_toNat, beq_iff_eq, BitVec.toNat_inj]

/-- The skip on different bytes, the bytes compared as numbers. -/
theorem State.skipIf_bne_pc_toNat (s : State) (a b : Byte) :
    (s.skipIf (a != b)).pc.toNat = if a.toNat = b.toNat then s.pc.toNat else (s.pc.toNat + 2) % 65536 := by
  simp only [State.skipIf_pc_toNat, bne_iff_ne, ne_eq, ite_not, BitVec.toNat_inj]

/-- Settles O26: both rules are one skip, on equality of the register and the immediate or on its negation. -/
theorem skipsOnImmediate : Obligations.SkipsOnImmediate := by
  intro x nn s
  exact ⟨⟨_, rfl, keeps_skipIf s rfl _, s.skipIf_beq_pc_toNat (s.reg x) nn⟩,
    ⟨_, rfl, keeps_skipIf s rfl _, s.skipIf_bne_pc_toNat (s.reg x) nn⟩⟩

end Machine

end Sys2Proof
end

section
/-! Proofs of the arithmetic statements O28 and O30 to O33 (42_alu.md R120, R121, R126 to R130): frames of a register
write and of the flag-then-result shape, what that shape leaves in its two registers, and the results as numbers. -/

namespace Sys2Proof

/-! ## The words of the immediate forms (R66) -/

theorem decodeWord_ldImm (x : Reg) (nn : Imm8) : decodeWord (0x6#4 ++ x ++ nn) = .ldImm x nn := by
  obtain ⟨opcode, register, immediate⟩ := fieldsXK 0x6#4 x nn
  simp [decodeWord, opcode, register, immediate]

theorem decodeWord_addImm (x : Reg) (nn : Imm8) : decodeWord (0x7#4 ++ x ++ nn) = .addImm x nn := by
  obtain ⟨opcode, register, immediate⟩ := fieldsXK 0x7#4 x nn
  simp [decodeWord, opcode, register, immediate]

namespace Machine

/-! ## Frames -/

/-- Only the register written can differ. -/
theorem keeps_setReg {f : Footprint} (s : State) {k : Reg} (allowed : k ∈ f.regs) (b : Byte) :
    Keeps f s (s.setReg k b) := by
  have others : ∀ j, j ∉ f.regs → (s.setReg k b).reg j = s.reg j := fun j outside =>
    s.reg_setReg_ne (ne_of_mem_of_not_mem allowed outside).symm b
  exact ⟨others, by simp⟩

/-- A flag and then a result change `v[15]` and the destination only (R13). -/
theorem keeps_flagThen (s : State) (flag : Byte) (x : Reg) (result : State → Byte) :
    Keeps { regs := [VF, x] } s (flagThen s flag x result) :=
  (keeps_setReg s (by simp) _).trans (keeps_setReg _ (by simp) _)

/-! ## The registers after a flag and then a result -/

/-- The destination holds the result, which is read after the flag write, `v[15]` as destination included. -/
theorem flagThen_reg_dest (s : State) (flag : Byte) (x : Reg) (result : State → Byte) :
    (flagThen s flag x result).reg x = result (s.setReg VF flag) := by
  rw [flagThen_reg, if_pos rfl]

/-- The flag stays where the destination is another register. -/
theorem flagThen_reg_flag (s : State) (flag : Byte) {x : Reg} (other : x ≠ VF) (result : State → Byte) :
    (flagThen s flag x result).reg VF = flag := by
  rw [flagThen_reg, if_neg other.symm, if_pos rfl]

/-! ## Immediate load and addition -/

/-- Settles O28: both rules are one write of the destination, `v[15]` like any other register. -/
theorem loadsAndAddImmediate : Obligations.LoadsAndAddImmediate := by
  intro x nn s
  have sum : ((s.setReg x (s.reg x + nn)).reg x).toNat = ((s.reg x).toNat + nn.toNat) % 256 := by
    rw [State.reg_setReg_same, BitVec.toNat_add]
  refine ⟨⟨decodeWord_ldImm x nn, decodeWord_addImm x nn⟩, ?_, ?_⟩
  · exact ⟨_, rfl, s.reg_setReg_same x nn, keeps_setReg s (List.mem_singleton_self x) _⟩
  · exact ⟨_, rfl, sum, keeps_setReg s (List.mem_singleton_self x) _⟩

/-! ## Addition of registers -/

/-- ADD has the flag-then-result shape, with a result formed before the flag write (R126). -/
theorem exec_addReg (x y : Reg) (s : State) :
    exec (.addReg x y) s =
      .next (flagThen s (carryFlag (s.reg x) (s.reg y)) x fun _ => sumLow (s.reg x) (s.reg y)) := rfl

/-- Settles O30: the sum is the last write, so the carry is lost exactly where the destination is `v[15]`. -/
theorem addWithCarryOut : Obligations.AddWithCarryOut := by
  intro x y s
  refine ⟨_, exec_addReg x y s, ?_, fun other => ?_, keeps_flagThen s _ x _⟩
  · rw [flagThen_reg_dest, sumLow_toNat]
  · rw [flagThen_reg_flag s _ other, carryFlag_toNat]

/-! ## Subtraction -/

/-- The common rule of SUB and SUBN: the strict flag of `v[m]` against `v[n]`, then their difference into `v[x]`. -/
def subtract (s : State) (x m n : Reg) : State :=
  flagThen s (greaterFlag (s.reg m) (s.reg n)) x fun t => t.reg m - t.reg n

theorem exec_sub (x y : Reg) (s : State) : exec (.sub x y) s = .next (subtract s x x y) := rfl

theorem exec_subn (x y : Reg) (s : State) : exec (.subn x y) s = .next (subtract s x y x) := rfl

theorem byte_sub_toNat (a b : Byte) : (a - b).toNat = (a.toNat + 256 - b.toNat) % 256 := by
  have bound := b.isLt
  rw [BitVec.toNat_sub]
  congr 1
  omega

section
variable (s : State) {m n : Reg} {flag : Nat} (strict : flag = if (s.reg m).toNat > (s.reg n).toNat then 1 else 0)
include strict

theorem subtract_reg_flag {x : Reg} (other : x ≠ VF) : ((subtract s x m n).reg VF).toNat = flag := by
  rw [subtract, flagThen_reg_flag s _ other, greaterFlag_toNat, strict]

/-- The difference is formed from the registers after the flag write: an operand in `v[15]` is the flag (R13, D10). -/
theorem subtract_reg_dest (x : Reg) :
    ((subtract s x m n).reg x).toNat =
      ((if m = VF then flag else (s.reg m).toNat) + 256 - (if n = VF then flag else (s.reg n).toNat)) % 256 := by
  have operand : ∀ k, ((s.setReg VF (greaterFlag (s.reg m) (s.reg n))).reg k).toNat =
      if k = VF then flag else (s.reg k).toNat := by
    intro k
    rw [State.reg_setReg, apply_ite BitVec.toNat, greaterFlag_toNat, strict]
  rw [subtract, flagThen_reg_dest, byte_sub_toNat, operand, operand]

end

/-- Settles O31: the minuend is the destination; `x` and `y` against 15 decide which operands are the flag. -/
theorem subtractStrictFlag : Obligations.SubtractStrictFlag := by
  intro x y s
  refine ⟨_, exec_sub x y s, keeps_flagThen s _ x _, ?_⟩
  rintro _ _ flag rfl rfl strict
  have difference := subtract_reg_dest s strict x
  refine ⟨subtract_reg_flag s strict, fun hx hy => ?_, fun hx hy => ?_, ?_, ?_⟩
  · rwa [if_neg hx, if_neg hy] at difference
  · rwa [if_neg hx, if_pos hy] at difference
  · rintro rfl hy
    rwa [if_pos rfl, if_neg hy] at difference
  · rintro rfl hy
    rwa [if_pos rfl, if_pos hy, Nat.add_sub_cancel_left] at difference

/-- Settles O32: the subtrahend is the destination; the cases of `x` and `y` against 15 are those of SUB. -/
theorem reverseSubtractStrictFlag : Obligations.ReverseSubtractStrictFlag := by
  intro x y s
  refine ⟨_, exec_subn x y s, keeps_flagThen s _ x _, ?_⟩
  rintro _ _ flag rfl rfl strict
  have difference := subtract_reg_dest s strict x
  refine ⟨subtract_reg_flag s strict, fun hx hy => ?_, fun hx hy => ?_, ?_, ?_⟩
  · rwa [if_neg hy, if_neg hx] at difference
  · rwa [if_pos hy, if_neg hx] at difference
  · rintro rfl hy
    rwa [if_neg hy, if_pos rfl] at difference
  · rintro rfl hy
    rwa [if_pos hy, if_pos rfl, Nat.add_sub_cancel_left] at difference

/-! ## Shifts -/

theorem exec_shr (x y : Reg) (s : State) :
    exec (.shr x y) s = .next (flagThen s (lowBitFlag (s.reg x)) x fun t => t.reg x >>> 1) := rfl

theorem exec_shl (x y : Reg) (s : State) :
    exec (.shl x y) s = .next (flagThen s (highBitFlag (s.reg x)) x fun t => t.reg x <<< 1) := rfl

theorem byte_shiftRight_one_toNat (a : Byte) : (a >>> 1).toNat = a.toNat / 2 := by
  rw [BitVec.toNat_ushiftRight, Nat.shiftRight_eq_div_pow, Nat.pow_one]

theorem byte_shiftLeft_one_toNat (a : Byte) : (a <<< 1).toNat = (2 * a.toNat) % 256 := by
  rw [BitVec.toNat_shiftLeft, Nat.shiftLeft_eq, Nat.pow_one, Nat.mul_comm]

/-- Settles O33: the register shifted is the destination, which the flag has replaced exactly where it is `v[15]`. -/
theorem shiftsMoveBitToFlag : Obligations.ShiftsMoveBitToFlag := by
  intro x y s
  have bound := (s.reg x).isLt
  refine ⟨⟨_, exec_shr x y s, keeps_flagThen s _ x _, fun other => ⟨?_, ?_⟩, ?_⟩,
    ⟨_, exec_shl x y s, keeps_flagThen s _ x _, fun other => ⟨?_, ?_⟩, ?_⟩⟩
  · rw [flagThen_reg_dest, State.reg_setReg_ne s other, byte_shiftRight_one_toNat]
  · rw [flagThen_reg_flag s _ other, lowBitFlag_toNat]
  · rintro rfl
    rw [flagThen_reg_dest, State.reg_setReg_same, byte_shiftRight_one_toNat, lowBitFlag_toNat]
    omega
  · rw [flagThen_reg_dest, State.reg_setReg_ne s other, byte_shiftLeft_one_toNat]
  · rw [flagThen_reg_flag s _ other, highBitFlag_toNat]
  · rintro rfl
    rw [flagThen_reg_dest, State.reg_setReg_same, byte_shiftLeft_one_toNat, highBitFlag_toNat]
    omega

end Machine

end Sys2Proof
end

section
/-! Proofs of the index and memory statements O34 and O36 to O38 (43_index_memory.md R140, R142 to R145): frames of an
index write, a byte store and the block transfers, the values stored, and what a block store leaves for a block load. -/

namespace Sys2Proof

/-! ## The words of the index loads (R66) -/

theorem decodeWord_ldI (nnn : Imm12) : decodeWord (0xA#4 ++ nnn) = .ldI nnn := by
  obtain ⟨opcode, operand⟩ := fieldsA 0xA#4 nnn
  simp [decodeWord, opcode, operand]

theorem decodeWord_ldF (x : Reg) : decodeWord (0xF#4 ++ x ++ 0x29#8) = .ldF x := by
  obtain ⟨opcode, register, code⟩ := fieldsXK 0xF#4 x 0x29#8
  simp [decodeWord, classifyF, opcode, register, code]

namespace Machine

/-! ## Frames -/

theorem Keeps.refl (f : Footprint) (s : State) : Keeps f s s := by simp [Keeps]

theorem keeps_setI {f : Footprint} (s : State) (allowed : f.i = true) (a : Addr) : Keeps f s (s.setI a) := by
  simp [Keeps, allowed]

/-- Only the byte written can differ. -/
theorem keeps_setMem_write {f : Footprint} (s : State) {a : Nat} (allowed : a ∈ f.bytes) (value : Byte) :
    Keeps f s (s.setMem (s.mem.write a value)) := by
  have others : ∀ b, b ∉ f.bytes → (s.mem.write a value).read b = s.mem.read b := fun b outside =>
    s.mem.read_write_ne (ne_of_mem_of_not_mem allowed outside).symm value
  exact ⟨fun _ _ => rfl, fun _ _ => rfl, others, by simp⟩

/-- A block store is one byte write per register (R144). -/
theorem keeps_setMem_storeRegs {f : Footprint} (s : State) {count : Nat}
    (allowed : ∀ k < count, s.baseOffset k ∈ f.bytes) : Keeps f s (s.setMem (storeRegs s count)) := by
  induction count with
  | zero => exact Keeps.refl f s
  | succ k ih =>
    have before : Keeps f s (s.setMem (storeRegs s k)) := ih fun j below => allowed j (by omega)
    exact before.trans (keeps_setMem_write (s.setMem (storeRegs s k)) (allowed k (by omega)) _)

/-- A block load is one register write per byte (R145). -/
theorem keeps_loadRegs {f : Footprint} (s : State) {count : Nat} (allowed : ∀ k < count, regOfIndex k ∈ f.regs) :
    Keeps f s (loadRegs s count) := by
  induction count with
  | zero => exact Keeps.refl f s
  | succ k ih =>
    have before : Keeps f s (loadRegs s k) := ih fun j below => allowed j (by omega)
    exact before.trans (keeps_setReg _ (allowed k (by omega)) _)

/-! ## Index loads -/

/-- `5 * 255` fits in 16 bits, so the address of a digit sprite is the product of the numbers (R142). -/
theorem digitAddr_toNat (d : Byte) : (digitAddr d).toNat = d.toNat * 5 := by
  have bound := d.isLt
  rw [digitAddr, BitVec.toNat_ofNat]
  omega

/-- Settles O34: both rules are one write of `I`, and the two equations of `exec` for LD F tell a digit from none. -/
theorem loadIndexAndDigitAddress : Obligations.LoadIndexAndDigitAddress := by
  intro x nnn s
  refine ⟨⟨decodeWord_ldI nnn, decodeWord_ldF x⟩, ?_, fun digit => ?_, fun invalid => ?_⟩
  · exact ⟨_, rfl, addrOf_toNat nnn, keeps_setI s rfl _⟩
  · exact ⟨_, exec_ldF_digit digit, digitAddr_toNat (s.reg x), keeps_setI s rfl _⟩
  · exact ⟨_, exec_ldF_invalid invalid, rfl, rfl, keeps_haltedWith s rfl _⟩

/-! ## Decimal digits -/

theorem hundreds_toNat (b : Byte) : (hundreds b).toNat = b.toNat / 100 := by
  have bound := b.isLt
  rw [hundreds, BitVec.toNat_ofNat]
  omega

theorem tens_toNat (b : Byte) : (tens b).toNat = b.toNat / 10 % 10 := by
  rw [tens, BitVec.toNat_ofNat]
  omega

theorem ones_toNat (b : Byte) : (ones b).toNat = b.toNat % 10 := by
  rw [ones, BitVec.toNat_ofNat]
  omega

/-- Offsets are formed without wrap, so different offsets are different bytes (R54). -/
theorem State.baseOffset_ne (s : State) {j k : Nat} (h : j ≠ k) : s.baseOffset j ≠ s.baseOffset k := by
  rw [State.baseOffset_eq, State.baseOffset_eq]
  omega

/-- Settles O36: the three writes go to three bytes, so each digit is read back past the writes that follow it. -/
theorem storesDecimalDigits : Obligations.StoresDecimalDigits := by
  intro x s
  refine ⟨fun inside => ⟨_, exec_ldB_store x inside, ?_, ?_, ?_, ?_⟩, fun outside => ?_⟩
  · rw [State.setMem_mem, Memory.read_write_ne _ (s.baseOffset_ne (by decide)),
      Memory.read_write_ne _ (s.baseOffset_ne (by decide)), Memory.read_write_same, hundreds_toNat]
  · rw [State.setMem_mem, Memory.read_write_ne _ (s.baseOffset_ne (by decide)), Memory.read_write_same, tens_toNat]
  · rw [State.setMem_mem, Memory.read_write_same, ones_toNat]
  · exact ((keeps_setMem_write s (by simp) _).trans (keeps_setMem_write (s.setMem _) (by simp) _)).trans
      (keeps_setMem_write (s.setMem _) (by simp) _)
  · exact ⟨_, exec_ldB_fault x outside, rfl, rfl, keeps_haltedWith s rfl _⟩

/-! ## Block transfers -/

/-- After a block store the byte at `I + k` is `v[k]` (R144). -/
theorem storeRegs_read_baseOffset (s : State) {count : Nat} {k : Reg} (stored : k.toNat < count) :
    (storeRegs s count).read (s.baseOffset k.toNat) = s.reg k := by
  rw [storeRegs_read, State.baseOffset_eq, if_pos (by omega), Nat.add_sub_cancel_left, regOfIndex_of_toNat]

/-- After a block load `v[k]` is the byte at `I + k`, for every register of the block (R145). -/
theorem loadRegs_reg_of_le (s : State) {k x : Reg} (h : k.toNat ≤ x.toNat) :
    (loadRegs s (x.toNat + 1)).reg k = s.mem.read (s.baseOffset k.toNat) := by
  rw [loadRegs_reg s x.isLt, if_pos (Nat.lt_succ_of_le h)]

/-- A block load from the `I` and the memory that a block store left brings the stored registers back. -/
theorem loadRegs_reg_of_storeRegs {s u : State} {x : Reg} (sameI : u.i = s.i)
    (stored : u.mem = storeRegs s (x.toNat + 1)) {k : Reg} (h : k.toNat ≤ x.toNat) :
    (loadRegs u (x.toNat + 1)).reg k = s.reg k := by
  have sameByte : u.baseOffset k.toNat = s.baseOffset k.toNat := by
    rw [State.baseOffset_eq, State.baseOffset_eq, sameI]
  rw [loadRegs_reg_of_le u h, stored, sameByte, storeRegs_read_baseOffset s (Nat.lt_succ_of_le h)]

/-- Settles O37: the two equations of `exec` for LD [I], Vx, with the block store read back byte by byte. -/
theorem storesRegisterBlock : Obligations.StoresRegisterBlock := by
  intro x s
  refine ⟨fun inside => ?_, fun outside => ?_⟩
  · exact ⟨_, exec_ldMemVx_store inside, fun k le => storeRegs_read_baseOffset s (Nat.lt_succ_of_le le),
      keeps_setMem_storeRegs s fun k below => List.mem_map_of_mem (List.mem_range.mpr below)⟩
  · exact ⟨_, exec_ldMemVx_fault outside, rfl, rfl, keeps_haltedWith s rfl _⟩

/-- Settles O38: the two equations of `exec` for LD Vx, [I]; the round trip is a block load of what a block store wrote. -/
theorem loadsRegisterBlock : Obligations.LoadsRegisterBlock := by
  intro x s
  refine ⟨fun inside => ?_, fun outside => ?_, fun inside => ?_⟩
  · exact ⟨_, exec_ldVxMem_load inside, fun k le => loadRegs_reg_of_le s le,
      keeps_loadRegs s fun k below => List.mem_map_of_mem (List.mem_range.mpr below)⟩
  · exact ⟨_, exec_ldVxMem_fault outside, rfl, rfl, keeps_haltedWith s rfl _⟩
  · refine ⟨_, exec_ldMemVx_store inside, fun u sameI stored => ?_⟩
    have insideU : u.i.toNat + x.toNat ≤ memLast := by rwa [sameI]
    exact ⟨_, exec_ldVxMem_load insideU, fun k le => loadRegs_reg_of_storeRegs sameI stored le⟩

end Machine

end Sys2Proof
end

section
/-! Proofs of the display statements O40 and O43 (44_display.md R160 to R165): frames of a framebuffer write and of an
event, the framebuffer and the flag that DRW leaves, and what a second DRW at the same place reads of the first. -/

namespace Sys2Proof.Machine

/-! ## Frames -/

theorem keeps_setFb {f : Footprint} (s : State) (allowed : f.fb = true) (rows : Vector Row 32) :
    Keeps f s (s.setFb rows) := by simp [Keeps, allowed]

theorem keeps_emit {f : Footprint} (s : State) (allowed : f.events = true) (e : DisplayEvent) :
    Keeps f s (s.emit e) := by simp [Keeps, allowed]

/-! ## Clear screen -/

/-- Settles O40: CLS is one framebuffer write and one event. -/
theorem clearScreenClears : Obligations.ClearScreenClears := by
  intro s
  have blank : ∀ r : Fin 32, (Vector.replicate 32 0#64)[r] = 0#64 := fun r => Vector.getElem_replicate r.isLt
  exact ⟨_, rfl, blank, rfl, (keeps_setFb s rfl _).trans (keeps_emit _ rfl _)⟩

/-! ## What a drawing leaves -/

theorem finishDrawing_fb (s : State) (count : Nat) (d : Drawing) : (finishDrawing s count d).fb = d.fb := by
  unfold finishDrawing
  split <;> rfl

theorem finishDrawing_reg_flag (s : State) (count : Nat) (d : Drawing) :
    (finishDrawing s count d).reg VF = flagByte d.collided := by
  unfold finishDrawing
  split <;> exact State.reg_setReg_same _ _ _

/-- The framebuffer, the flag and, where a row was drawn, the event stream (R161, R163, R164). -/
theorem keeps_finishDrawing (s : State) (count : Nat) (d : Drawing) :
    Keeps { regs := [VF], fb := true, events := true } s (finishDrawing s count d) := by
  have shown : Keeps { regs := [VF], fb := true, events := true } s ((s.setFb d.fb).setReg VF (flagByte d.collided)) :=
    (keeps_setFb s rfl _).trans (keeps_setReg _ (List.mem_singleton_self VF) _)
  unfold finishDrawing
  split
  · exact shown.trans (keeps_emit _ rfl _)
  · exact shown

/-! ## A draw that completes -/

/-- The state after a DRW with nothing to draw or in bounds (`exec_drw_eq_drawSprite`). -/
def drawSprite (s : State) (x y : Reg) (n : Imm4) : State :=
  finishDrawing s (rowsDrawn s y n) (drawRows s (s.reg x) (s.reg y).toNat (rowsDrawn s y n))

theorem exec_drw_eq_drawSprite {s : State} (x : Reg) {y : Reg} {n : Imm4}
    (inBounds : rowsDrawn s y n = 0 ∨ s.i.toNat + rowsDrawn s y n - 1 ≤ memLast) :
    exec (.drw x y n) s = .next (drawSprite s x y n) := exec_drw_draw x inBounds

theorem drawSprite_row (s : State) (x y : Reg) (n : Imm4) {k : Nat} (onScreen : k < 32) :
    (drawSprite s x y n).fb[k] =
      if (s.reg y).toNat ≤ k ∧ k < (s.reg y).toNat + rowsDrawn s y n
      then s.fb[k] ^^^ spriteRow s (s.reg x) (s.reg y).toNat k else s.fb[k] := by
  simp only [drawSprite, finishDrawing_fb]
  exact (drawRows_drawn s _ _ _ (rowsDrawn_inside s y n)).row k onScreen

/-- A placed bit on a set pixel of one drawn row sets the flag (R163). -/
theorem drawSprite_flag_of_collision (s : State) (x y : Reg) (n : Imm4)
    (collision : ∃ k, ∃ _ : k < 32, ((s.reg y).toNat ≤ k ∧ k < (s.reg y).toNat + rowsDrawn s y n) ∧
      s.fb[k] &&& spriteRow s (s.reg x) (s.reg y).toNat k ≠ 0#64) :
    (drawSprite s x y n).reg VF = 0x01#8 := by
  have collided := (drawRows_drawn s (s.reg x) _ _ (rowsDrawn_inside s y n)).collided.mpr collision
  rw [drawSprite, finishDrawing_reg_flag, collided]
  rfl

/-! ## The same draw again -/

/-- Placing the same bits on a row twice restores it. -/
theorem row_xor_xor_cancel (old placed : Row) : old ^^^ placed ^^^ placed = old := by
  rw [BitVec.xor_assoc, BitVec.xor_self, BitVec.xor_zero]

/-- The second time, the placed bits on set pixels are those that fell on unset pixels the first time (log 20). -/
theorem row_xor_and_eq_and_not (old placed : Row) : (old ^^^ placed) &&& placed = placed &&& ~~~old := by
  ext b
  simp only [BitVec.getElem_and, BitVec.getElem_xor, BitVec.getElem_not]
  cases old[b] <;> cases placed[b] <;> rfl

section
variable (s : State) (x : Reg) {y : Reg} (n : Imm4)

theorem keeps_drawSprite : Keeps { regs := [VF], fb := true, events := true } s (drawSprite s x y n) :=
  keeps_finishDrawing s _ _

theorem drawSprite_i : (drawSprite s x y n).i = s.i := by
  obtain ⟨-, -, -, index, -⟩ := keeps_drawSprite s x (y := y) n
  exact index rfl

/-- DRW writes no register but the flag. -/
theorem drawSprite_reg {k : Reg} (other : k ≠ VF) : (drawSprite s x y n).reg k = s.reg k := by
  obtain ⟨reg, -⟩ := keeps_drawSprite s x (y := y) n
  exact reg k (mt List.mem_singleton.mp other)

theorem drawSprite_rowsDrawn (hy : y ≠ VF) : rowsDrawn (drawSprite s x y n) y n = rowsDrawn s y n := by
  rw [rowsDrawn, rowsDrawn, drawSprite_reg s x n hy]

/-- DRW writes neither `I` nor memory, so the next DRW reads the same sprite. -/
theorem drawSprite_spriteRow (h : Byte) (t k : Nat) :
    spriteRow (drawSprite s x y n) h t k = spriteRow s h t k := by
  obtain ⟨-, -, byte, -⟩ := keeps_drawSprite s x (y := y) n
  rw [spriteRow, spriteRow, drawSprite_i, byte _ List.not_mem_nil]

end

section
variable (s : State) {x y : Reg} (hx : x ≠ VF) (hy : y ≠ VF) (n : Imm4)
include hx hy

/-- The second draw places the same bits on the same rows, so each row is XORed twice with one value. -/
theorem drawSprite_drawSprite_fb : (drawSprite (drawSprite s x y n) x y n).fb = s.fb := by
  refine Vector.ext fun k onScreen => ?_
  rw [drawSprite_row _ x y n onScreen, drawSprite_row s x y n onScreen, drawSprite_rowsDrawn s x n hy,
    drawSprite_spriteRow, drawSprite_reg s x n hx, drawSprite_reg s x n hy]
  split
  · exact row_xor_xor_cancel _ _
  · rfl

/-- A bit placed on an unset pixel by the first draw is turned off by the second, which sets the flag (R163). -/
theorem drawSprite_drawSprite_flag
    (placedOnUnset : ∃ k : Fin 32, ((s.reg y).toNat ≤ k.val ∧ k.val < (s.reg y).toNat + rowsDrawn s y n) ∧
      spriteRow s (s.reg x) (s.reg y).toNat k.val &&& ~~~ s.fb[k] ≠ 0#64) :
    (drawSprite (drawSprite s x y n) x y n).reg VF = 0x01#8 := by
  obtain ⟨k, drawn, unset⟩ := placedOnUnset
  refine drawSprite_flag_of_collision _ x y n ⟨k.val, k.isLt, ?_⟩
  rw [drawSprite_rowsDrawn s x n hy, drawSprite_spriteRow, drawSprite_reg s x n hx, drawSprite_reg s x n hy,
    drawSprite_row s x y n k.isLt, if_pos drawn, row_xor_and_eq_and_not]
  exact ⟨drawn, unset⟩

end

/-- Settles O43: the second draw is in bounds where the first is, and acts on what the first one left. -/
theorem drawTwiceRestores : Obligations.DrawTwiceRestores := by
  intro x y n s hx hy inBounds
  have inBoundsAgain : rowsDrawn (drawSprite s x y n) y n = 0 ∨
      (drawSprite s x y n).i.toNat + rowsDrawn (drawSprite s x y n) y n - 1 ≤ memLast := by
    rwa [drawSprite_rowsDrawn s x n hy, drawSprite_i]
  exact ⟨_, _, exec_drw_eq_drawSprite x inBounds, exec_drw_eq_drawSprite x inBoundsAgain,
    drawSprite_drawSprite_fb s hx hy n, drawSprite_drawSprite_flag s hx hy n⟩

end Sys2Proof.Machine
end

section
/-! Proofs of the input and timer statements O44 and O47 (45_input_random_timers.md R171, R177, R179): frames of a timer
write and of a counted answer, and that every operation but a write of `ST` commutes with one, so that no instruction
reads `ST`. -/

namespace Sys2Proof

/-! ## The words of the random byte and of the timer writes (R66) -/

theorem decodeWord_rnd (x : Reg) (nn : Imm8) : decodeWord (0xC#4 ++ x ++ nn) = .rnd x nn := by
  obtain ⟨opcode, register, mask⟩ := fieldsXK 0xC#4 x nn
  simp [decodeWord, opcode, register, mask]

theorem decodeWord_ldDTVx (x : Reg) : decodeWord (0xF#4 ++ x ++ 0x15#8) = .ldDTVx x := by
  obtain ⟨opcode, register, code⟩ := fieldsXK 0xF#4 x 0x15#8
  simp [decodeWord, classifyF, opcode, register, code]

theorem decodeWord_ldSTVx (x : Reg) : decodeWord (0xF#4 ++ x ++ 0x18#8) = .ldSTVx x := by
  obtain ⟨opcode, register, code⟩ := fieldsXK 0xF#4 x 0x18#8
  simp [decodeWord, classifyF, opcode, register, code]

namespace Machine

/-! ## Frames -/

theorem keeps_setDt {f : Footprint} (s : State) (allowed : f.dt = true) (b : Byte) : Keeps f s (s.setDt b) := by
  simp [Keeps, allowed]

theorem keeps_setSt {f : Footprint} (s : State) (allowed : f.st = true) (b : Byte) : Keeps f s (s.setSt b) := by
  simp [Keeps, allowed]

theorem keeps_countAnswer {f : Footprint} (s : State) (allowed : f.answers = true) : Keeps f s s.countAnswer := by
  simp [Keeps, allowed]

/-! ## The random byte -/

/-- Settles O44: RND is one register write and one counted answer; the byte written is an AND, read bit by bit. -/
theorem randomUnderMask : Obligations.RandomUnderMask := by
  intro x nn s
  refine ⟨decodeWord_rnd x nn, _, rfl, fun k => ?_, rfl,
    (keeps_setReg s (List.mem_singleton_self x) _).trans (keeps_countAnswer _ rfl)⟩
  rw [State.countAnswer_reg, State.reg_setReg_same, BitVec.getLsbD_and]

/-! ## The block transfers and the drawing do not read `ST` -/

section
variable (s : State) (b : Byte)

theorem storeRegs_setSt (count : Nat) : storeRegs (s.setSt b) count = storeRegs s count := by
  induction count with
  | zero => rfl
  | succ k ih => exact congrArg (fun m => m.write (s.baseOffset k) (s.reg (regOfIndex k))) ih

theorem loadRegs_setSt (count : Nat) : loadRegs (s.setSt b) count = (loadRegs s count).setSt b := by
  induction count with
  | zero => rfl
  | succ k ih => exact congrArg (fun t => t.setReg (regOfIndex k) (s.mem.read (s.baseOffset k))) ih

theorem drawRows_setSt (h : Byte) (t count : Nat) : drawRows (s.setSt b) h t count = drawRows s h t count := by
  induction count with
  | zero => rfl
  | succ k ih => exact congrArg (drawRow s h t k) ih

theorem finishDrawing_setSt (count : Nat) (d : Drawing) :
    finishDrawing (s.setSt b) count d = (finishDrawing s count d).setSt b := by
  unfold finishDrawing
  split <;> rfl

theorem drawSprite_setSt (x y : Reg) (n : Imm4) : drawSprite (s.setSt b) x y n = (drawSprite s x y n).setSt b := by
  have sameRows : rowsDrawn (s.setSt b) y n = rowsDrawn s y n := rfl
  simp only [drawSprite, State.setSt_reg, sameRows, drawRows_setSt, finishDrawing_setSt]

end

/-! ## Equations of `exec` for the rules that have cases -/

/-- R100, `SP` above 16: no entry to return to (log 16). -/
theorem exec_ret_absent {s : State} (h : 16 < s.sp.toNat) : exec .ret s = .fault .stackEntryAbsent := by
  have nonempty : s.sp ≠ 0#5 := fun empty => by simp [empty] at h
  have outside : s.stack[s.sp.toNat - 1]? = none := Vector.getElem?_eq_none (by omega)
  simp [exec, execRet, nonempty, outside]

/-- R143, the bound not yet decided. -/
theorem exec_ldB (x : Reg) (s : State) :
    exec (.ldB x) s = withAccess s (s.baseOffset 0) 3 (.next (s.setMem
      (((s.mem.write (s.baseOffset 0) (hundreds (s.reg x))).write
        (s.baseOffset 1) (tens (s.reg x))).write (s.baseOffset 2) (ones (s.reg x))))) := rfl

/-- R144, the bound not yet decided. -/
theorem exec_ldMemVx (x : Reg) (s : State) :
    exec (.ldMemVx x) s =
      withAccess s (s.baseOffset 0) (x.toNat + 1) (.next (s.setMem (storeRegs s (x.toNat + 1)))) := rfl

/-- R145, the bound not yet decided. -/
theorem exec_ldVxMem (x : Reg) (s : State) :
    exec (.ldVxMem x) s = withAccess s (s.baseOffset 0) (x.toNat + 1) (.next (loadRegs s (x.toNat + 1))) := rfl

/-- R161, neither the number of rows nor the bound yet decided. -/
theorem exec_drw (x y : Reg) (n : Imm4) (s : State) :
    exec (.drw x y n) s =
      if rowsDrawn s y n > 0 then
        withAccess s (s.baseOffset 0) (rowsDrawn s y n) (.next (drawSprite s x y n))
      else .next (drawSprite s x y n) := rfl

/-! ## No instruction reads `ST` -/

section
variable (s : State) (b : Byte)

/-- The bound check reads `I` only. -/
theorem onNext_setSt_withAccess (a n : Nat) (go : Answer) :
    onNext (fun t => t.setSt b) (withAccess s a n go) =
      withAccess (s.setSt b) a n (onNext (fun t => t.setSt b) go) :=
  onNext_withAccess rfl a n go

theorem exec_ret_setSt : exec .ret (s.setSt b) = onNext (fun t => t.setSt b) (exec .ret s) := by
  by_cases low : 0 < s.sp.toNat
  · by_cases high : s.sp.toNat ≤ 16
    · rw [exec_ret_pop low high, exec_ret_pop (s := s.setSt b) low high]
      rfl
    · have above := Nat.lt_of_not_le high
      rw [exec_ret_absent above, exec_ret_absent (s := s.setSt b) above]
      rfl
  · have empty := Nat.eq_zero_of_not_pos low
    rw [exec_ret_underflow empty, exec_ret_underflow (s := s.setSt b) empty]
    rfl

theorem exec_call_setSt (nnn : Imm12) :
    exec (.call nnn) (s.setSt b) = onNext (fun t => t.setSt b) (exec (.call nnn) s) := by
  rcases Nat.lt_or_ge s.sp.toNat 16 with room | full
  · rw [exec_call_push room, exec_call_push (s := s.setSt b) room]
    rfl
  · rw [exec_call_overflow full, exec_call_overflow (s := s.setSt b) full]
    rfl

theorem exec_ldF_setSt (x : Reg) :
    exec (.ldF x) (s.setSt b) = onNext (fun t => t.setSt b) (exec (.ldF x) s) := by
  rcases Nat.lt_or_ge (s.reg x).toNat 16 with digit | invalid
  · rw [exec_ldF_digit digit, exec_ldF_digit (s := s.setSt b) digit]
    rfl
  · rw [exec_ldF_invalid invalid, exec_ldF_invalid (s := s.setSt b) invalid]
    rfl

theorem exec_ldB_setSt (x : Reg) :
    exec (.ldB x) (s.setSt b) = onNext (fun t => t.setSt b) (exec (.ldB x) s) := by
  rw [exec_ldB, exec_ldB, onNext_setSt_withAccess]
  rfl

theorem exec_ldMemVx_setSt (x : Reg) :
    exec (.ldMemVx x) (s.setSt b) = onNext (fun t => t.setSt b) (exec (.ldMemVx x) s) := by
  rw [exec_ldMemVx, exec_ldMemVx, onNext_setSt_withAccess, storeRegs_setSt]
  rfl

theorem exec_ldVxMem_setSt (x : Reg) :
    exec (.ldVxMem x) (s.setSt b) = onNext (fun t => t.setSt b) (exec (.ldVxMem x) s) := by
  rw [exec_ldVxMem, exec_ldVxMem, onNext_setSt_withAccess, onNext_next, loadRegs_setSt]
  rfl

theorem exec_drw_setSt (x y : Reg) (n : Imm4) :
    exec (.drw x y n) (s.setSt b) = onNext (fun t => t.setSt b) (exec (.drw x y n) s) := by
  rw [exec_drw, exec_drw, onNext_ite, onNext_setSt_withAccess, onNext_next, drawSprite_setSt]
  rfl

/-- `ST` is read by no instruction: only LD ST, Vx overwrites it, every other one commutes with a write to it (R179). -/
theorem exec_setSt {i : Instr} (other : ∀ x, i ≠ .ldSTVx x) :
    exec i (s.setSt b) = onNext (fun t => t.setSt b) (exec i s) := by
  cases i with
  | ldSTVx x => exact absurd rfl (other x)
  | ret => exact exec_ret_setSt s b
  | call nnn => exact exec_call_setSt s b nnn
  | drw x y n => exact exec_drw_setSt s b x y n
  | ldF x => exact exec_ldF_setSt s b x
  | ldB x => exact exec_ldB_setSt s b x
  | ldMemVx x => exact exec_ldMemVx_setSt s b x
  | ldVxMem x => exact exec_ldVxMem_setSt s b x
  | _ => rfl

end

/-! ## The timer writes -/

/-- LD ST, Vx overwrites what stood in `ST` without reading it (R179). -/
theorem exec_ldSTVx_setSt (x : Reg) (s : State) (b : Byte) : exec (.ldSTVx x) (s.setSt b) = exec (.ldSTVx x) s := rfl

/-- Settles O47: each rule is one timer write; LD ST, Vx overwrites `ST`, and every other instruction
commutes with a write of `ST`. -/
theorem timerWrites : Obligations.TimerWrites := by
  refine ⟨fun x => ⟨decodeWord_ldDTVx x, decodeWord_ldSTVx x⟩, fun _ s b other => exec_setSt s b other,
    exec_ldSTVx_setSt, fun x s => ⟨?_, ?_⟩⟩
  · exact ⟨_, rfl, rfl, keeps_setDt s rfl _⟩
  · exact ⟨_, rfl, rfl, keeps_setSt s rfl _⟩

end Machine

end Sys2Proof
end

section
/-! Proof of the exception statement O25 (60_exceptions.md R216): what nested calls leave of `SP`, and that no transition
takes `SP` out of 0 to 16, because only CALL and RET write it and each stops at its end of the stack. -/

namespace Sys2Proof.Machine

/-! ## Calls and returns, from O22 and O24 -/

/-- A return right after a call that found room finds the `PC` and the `SP` of before. -/
theorem exec_ret_after_call (nnn : Imm12) {s : State} (room : s.sp.toNat < 16) :
    ∃ t u, exec (.call nnn) s = .next t ∧ exec .ret t = .next u ∧ u.pc = s.pc ∧ u.sp = s.sp := by
  obtain ⟨-, push, -⟩ := callPushesOrOverflows nnn s
  obtain ⟨t, called, pushed, counted, -⟩ := push room
  obtain ⟨-, pop⟩ := returnPopsOrUnderflows.2 t
  obtain ⟨u, returned, uncounted, popped, -⟩ := pop (by omega) (by omega)
  have restored : u.sp.toNat = s.sp.toNat := by omega
  have samePc : some u.pc = some s.pc := by
    rw [← popped, ← pushed, counted, Nat.add_sub_cancel]
  exact ⟨t, u, called, returned, Option.some.inj samePc, BitVec.eq_of_toNat_eq restored⟩

theorem nestedCalls_cons_of_next {nnn : Imm12} {s t : State} (called : exec (.call nnn) s = .next t)
    (rest : List Imm12) : nestedCalls (nnn :: rest) s = nestedCalls rest t := by
  rw [nestedCalls, called]

/-- Calls in a row complete as long as the stack has room for all of them, and each takes one entry. -/
theorem nestedCalls_sp (targets : List Imm12) {s : State} (room : s.sp.toNat + targets.length ≤ 16) :
    ∃ t, nestedCalls targets s = .next t ∧ t.sp.toNat = s.sp.toNat + targets.length := by
  induction targets generalizing s with
  | nil => exact ⟨s, rfl, rfl⟩
  | cons nnn rest ih =>
    rw [List.length_cons] at room ⊢
    obtain ⟨-, push, -⟩ := callPushesOrOverflows nnn s
    obtain ⟨t, called, -, counted, -⟩ := push (by omega)
    obtain ⟨u, nested, total⟩ := ih (s := t) (by omega)
    exact ⟨u, (nestedCalls_cons_of_next called rest).trans nested, by omega⟩

/-! ## `SP` in the operations that do not write it -/

/-- The bound check answers a next state only by the halt or by what the access does (R43). -/
theorem withAccess_next {s t : State} {a n : Nat} {go : Answer} (h : withAccess s a n go = .next t) :
    t = s.haltedWith .addressFault ∨ go = .next t := by
  rcases Nat.lt_or_ge memLast (a + n - 1) with outside | inside
  · rw [withAccess_of_gt outside] at h
    injection h with halted
    exact Or.inl halted.symm
  · exact Or.inr ((withAccess_of_le inside go).symm.trans h)

/-- An access keeps `SP` where what it does in bounds keeps it. -/
theorem withAccess_sp {s t u : State} {a n : Nat} (keeps : u.sp = s.sp) (h : withAccess s a n (.next u) = .next t) :
    t.sp = s.sp := by
  rcases withAccess_next h with rfl | done
  · rfl
  · injection done with done
    rw [← done, keeps]

theorem loadRegs_sp (s : State) (count : Nat) : (loadRegs s count).sp = s.sp := by
  rw [loadRegs_frame]

theorem drawSprite_sp (s : State) (x y : Reg) (n : Imm4) : (drawSprite s x y n).sp = s.sp := by
  obtain ⟨-, -, -, -, -, -, -, sp, -⟩ := keeps_drawSprite s x (y := y) n
  exact sp rfl

theorem exec_drw_sp {x y : Reg} {n : Imm4} {s t : State} (h : exec (.drw x y n) s = .next t) : t.sp = s.sp := by
  rw [exec_drw] at h
  split at h
  · exact withAccess_sp (drawSprite_sp s x y n) h
  · injection h with drawn
    rw [← drawn, drawSprite_sp]

theorem exec_ldF_sp {x : Reg} {s t : State} (h : exec (.ldF x) s = .next t) : t.sp = s.sp := by
  rcases Nat.lt_or_ge (s.reg x).toNat 16 with digit | invalid
  · rw [exec_ldF_digit digit] at h
    cases h
    rfl
  · rw [exec_ldF_invalid invalid] at h
    cases h
    rfl

/-- Only CALL and RET write `SP`. -/
theorem exec_sp_of_not_call_ret {i : Instr} {s t : State} (notCall : ∀ nnn, i ≠ .call nnn) (notRet : i ≠ .ret)
    (h : exec i s = .next t) : t.sp = s.sp := by
  cases i with
  | call nnn => exact absurd rfl (notCall nnn)
  | ret => exact absurd rfl notRet
  | drw x y n => exact exec_drw_sp h
  | ldF x => exact exec_ldF_sp h
  | ldB x => exact withAccess_sp (s.setMem_sp _) ((exec_ldB x s).symm.trans h)
  | ldMemVx x => exact withAccess_sp (s.setMem_sp _) ((exec_ldMemVx x s).symm.trans h)
  | ldVxMem x => exact withAccess_sp (loadRegs_sp s _) ((exec_ldVxMem x s).symm.trans h)
  | _ => cases h; rfl

theorem State.tick_sp (s : State) : s.tick.sp = s.sp := by
  unfold State.tick
  split <;> rfl

theorem State.pressKey_sp (s : State) (key : BitVec 4) : (s.pressKey key).sp = s.sp := by
  unfold State.pressKey
  split <;> rfl

theorem State.restart_sp (s : State) (image : Image) : (s.restart image).sp = 0#5 := rfl

/-! ## `SP` stays within 0 to 16 -/

theorem exec_call_sp_le {nnn : Imm12} {s t : State} (h : exec (.call nnn) s = .next t) (bound : s.sp.toNat ≤ 16) :
    t.sp.toNat ≤ 16 := by
  rcases Nat.lt_or_ge s.sp.toNat 16 with room | full
  · obtain ⟨-, push, -⟩ := callPushesOrOverflows nnn s
    obtain ⟨u, called, -, counted, -⟩ := push room
    cases called.symm.trans h
    omega
  · rw [exec_call_overflow full] at h
    cases h
    exact bound

theorem exec_ret_sp_le {s t : State} (h : exec .ret s = .next t) (bound : s.sp.toNat ≤ 16) : t.sp.toNat ≤ 16 := by
  obtain ⟨-, pop⟩ := returnPopsOrUnderflows.2 s
  rcases Nat.eq_zero_or_pos s.sp.toNat with empty | nonempty
  · rw [exec_ret_underflow empty] at h
    cases h
    exact bound
  · obtain ⟨u, returned, uncounted, -⟩ := pop nonempty bound
    cases returned.symm.trans h
    omega

theorem exec_sp_le {i : Instr} {s t : State} (h : exec i s = .next t) (bound : s.sp.toNat ≤ 16) :
    t.sp.toNat ≤ 16 := by
  by_cases call : ∃ nnn, i = .call nnn
  · obtain ⟨nnn, rfl⟩ := call
    exact exec_call_sp_le h bound
  · by_cases ret : i = .ret
    · subst ret
      exact exec_ret_sp_le h bound
    · rwa [exec_sp_of_not_call_ret (not_exists.mp call) ret h]

/-- The stack's half of the invariant of R32: no transition takes `SP` above 16. -/
theorem step_sp_le {s t : State} (h : step s = .next t) (bound : s.sp.toNat ≤ 16) : t.sp.toNat ≤ 16 := by
  rcases transition_next h with ⟨-, -, executed⟩ | ⟨-, -, rfl⟩ | ⟨-, rfl⟩ | ⟨rest, -, rfl⟩ | ⟨key, rest, -, rfl⟩ |
    ⟨image, rest, -, rfl⟩
  · exact exec_sp_le executed bound
  · exact bound
  · exact bound
  · rwa [State.tick_sp]
  · rwa [State.pressKey_sp]
  · rw [State.restart_sp]
    decide

/-- Settles O25: a call takes one stack entry and a return gives it back; 16 calls use all the entries, so that the
17th halts, and no other transition but a reset writes `SP`. -/
theorem sixteenCallsNest : Obligations.SixteenCallsNest := by
  refine ⟨fun nnn s room => exec_ret_after_call nnn room, fun targets s empty sixteen => ?_, fun s empty => ?_,
    fun s t bound h => step_sp_le h bound⟩
  · obtain ⟨t, nested, counted⟩ := nestedCalls_sp targets (s := s) (by omega)
    have full : t.sp.toNat = 16 := by rw [counted, empty, sixteen]
    exact ⟨t, nested, full, fun nnn => ⟨_, exec_call_overflow full.ge nnn, rfl, rfl, full, rfl⟩⟩
  · exact ⟨_, exec_ret_underflow empty, rfl, rfl, empty⟩

end Sys2Proof.Machine
end

section
/-! Proofs of the encoding statements O1, O2, O3, O5 and O6 (30_encoding.md R61 to R74): a word put together again from
its fields, the decoder on the encoder's word shapes, and the error kind of a word that selects no instruction. -/

namespace Sys2Proof

/-! ## A word is its fields (R62) -/

theorem opcode_append_nnn (w : Word) : (opcodeField w ++ nnnField w : Word) = w := by
  apply BitVec.eq_of_toNat_eq
  rw [wordA_toNat, ← word_toNat_eq_opcode_nnn]

theorem opcode_append_x_nn (w : Word) : (opcodeField w ++ xField w ++ nnField w : Word) = w := by
  apply BitVec.eq_of_toNat_eq
  rw [wordXK_toNat, word_toNat_eq_opcode_nnn w, nnnField_toNat_eq_x_nn]
  omega

theorem opcode_append_x_y_n (w : Word) : (opcodeField w ++ xField w ++ yField w ++ nField w : Word) = w := by
  apply BitVec.eq_of_toNat_eq
  rw [wordXYN_toNat, word_toNat_eq_opcode_nnn w, nnnField_toNat_eq_x_nn, nnField_toNat_eq_y_n]
  omega

section
variable {w : Word} {o : BitVec 4} (opcode : (opcodeField w).toNat = o.toNat)
include opcode

theorem wordA_of_fields : (o ++ nnnField w : Word) = w := by
  rw [← BitVec.eq_of_toNat_eq opcode, opcode_append_nnn]

theorem wordXK_of_fields {k : Imm8} (low : (nnField w).toNat = k.toNat) : (o ++ xField w ++ k : Word) = w := by
  rw [← BitVec.eq_of_toNat_eq opcode, ← BitVec.eq_of_toNat_eq low, opcode_append_x_nn]

theorem wordXYN_of_fields {n : Imm4} (low : (nField w).toNat = n.toNat) :
    (o ++ xField w ++ yField w ++ n : Word) = w := by
  rw [← BitVec.eq_of_toNat_eq opcode, ← BitVec.eq_of_toNat_eq low, opcode_append_x_y_n]

end

/-! ## What the decoder answers stands for the word -/

/-- The term is well-formed and its encoding is the word. -/
def StandsFor (i : Instr) (w : Word) : Prop := i.wellFormed = true ∧ encodeWord i = w

section
variable {w : Word}

theorem classify0_standsFor (opcode : (opcodeField w).toNat = 0x0) : StandsFor (classify0 w) w := by
  unfold classify0
  split
  · next cls => exact ⟨rfl, by rw [encodeWord, ← wordA_of_fields (o := 0x0#4) opcode, cls]; rfl⟩
  split
  · next ret => exact ⟨rfl, by rw [encodeWord, ← wordA_of_fields (o := 0x0#4) opcode, ret]; rfl⟩
  · next notCls notRet => exact ⟨by simp [Instr.wellFormed, notCls, notRet], wordA_of_fields opcode⟩

theorem classify8_standsFor (opcode : (opcodeField w).toNat = 0x8) : StandsFor (classify8 w) w := by
  unfold classify8
  split
  case h_10 =>
    have bound := (nField w).isLt
    refine ⟨?_, wordXYN_of_fields opcode rfl⟩
    simp only [Instr.wellFormed, family8Holes, List.contains_eq_mem, List.mem_cons, List.not_mem_nil, or_false,
      ← BitVec.toNat_inj, BitVec.toNat_ofNat, decide_eq_true_eq]
    simp only [imp_false] at *
    omega
  all_goals next selector => exact ⟨rfl, wordXYN_of_fields opcode selector⟩

theorem classifyE_standsFor (opcode : (opcodeField w).toNat = 0xE) : StandsFor (classifyE w) w := by
  unfold classifyE
  split
  · next skp => exact ⟨rfl, wordXK_of_fields opcode (congrArg BitVec.toNat skp)⟩
  split
  · next sknp => exact ⟨rfl, wordXK_of_fields opcode (congrArg BitVec.toNat sknp)⟩
  · next notSkp notSknp => exact ⟨by simp [Instr.wellFormed, notSkp, notSknp], wordXK_of_fields opcode rfl⟩

theorem classifyF_standsFor (opcode : (opcodeField w).toNat = 0xF) : StandsFor (classifyF w) w := by
  unfold classifyF
  split
  case h_10 =>
    refine ⟨?_, wordXK_of_fields opcode rfl⟩
    simp_all [Instr.wellFormed, familyFCodes, ← BitVec.toNat_inj]
  all_goals next code => exact ⟨rfl, wordXK_of_fields opcode code⟩

end

/-- Settles O2: each arm of the decoder fixes the opcode, and with it the word is put together from the fields that the
term holds; the last arm is reached by opcode 15 only. -/
theorem everyWordIsOneInstruction : Obligations.EveryWordIsOneInstruction := by
  intro w
  change StandsFor (decodeWord w) w
  unfold decodeWord
  -- The arms of the decoder in its order: `h_1` is opcode 0, `h_16` the last one.
  split
  case h_1 opcode => exact classify0_standsFor opcode
  case h_9 opcode => exact classify8_standsFor opcode
  case h_15 opcode => exact classifyE_standsFor opcode
  case h_16 =>
    have bound := (opcodeField w).isLt
    simp only [imp_false] at *
    exact classifyF_standsFor (by omega)
  case h_2 opcode | h_3 opcode | h_11 opcode | h_12 opcode => exact ⟨rfl, wordA_of_fields opcode⟩
  case h_4 opcode | h_5 opcode | h_7 opcode | h_8 opcode | h_13 opcode => exact ⟨rfl, wordXK_of_fields opcode rfl⟩
  case h_14 opcode => exact ⟨rfl, wordXYN_of_fields opcode rfl⟩
  case h_6 opcode | h_10 opcode =>
    split
    · next zero => exact ⟨rfl, wordXYN_of_fields opcode (congrArg BitVec.toNat zero)⟩
    · next nonzero => exact ⟨by simpa [Instr.wellFormed] using nonzero, wordXYN_of_fields opcode rfl⟩

/-! ## Decoding what the encoder wrote -/

section
variable (o : BitVec 4) (x y : Reg) (n : Imm4) (k : Imm8) (a : Imm12)

@[simp] theorem opcodeField_wordA : opcodeField (o ++ a : Word) = o := (fieldsA o a).1
@[simp] theorem nnnField_wordA : nnnField (o ++ a : Word) = a := (fieldsA o a).2
@[simp] theorem opcodeField_wordXK : opcodeField (o ++ x ++ k : Word) = o := (fieldsXK o x k).1
@[simp] theorem xField_wordXK : xField (o ++ x ++ k : Word) = x := (fieldsXK o x k).2.1
@[simp] theorem nnField_wordXK : nnField (o ++ x ++ k : Word) = k := (fieldsXK o x k).2.2
@[simp] theorem opcodeField_wordXYN : opcodeField (o ++ x ++ y ++ n : Word) = o := (fieldsXYN o x y n).1
@[simp] theorem xField_wordXYN : xField (o ++ x ++ y ++ n : Word) = x := (fieldsXYN o x y n).2.1
@[simp] theorem yField_wordXYN : yField (o ++ x ++ y ++ n : Word) = y := (fieldsXYN o x y n).2.2.1
@[simp] theorem nField_wordXYN : nField (o ++ x ++ y ++ n : Word) = n := (fieldsXYN o x y n).2.2.2

end

/-! The holes of the four families with selectors (R69). -/

section
variable {w : Word}

theorem classify0_of_hole (notCls : nnnField w ≠ 0x0E0#12) (notRet : nnnField w ≠ 0x0EE#12) :
    classify0 w = .illegal0 (nnnField w) := by
  rw [classify0, if_neg notCls, if_neg notRet]

theorem classify8_of_hole (hole : nField w ∈ family8Holes) :
    classify8 w = .illegal8 (xField w) (yField w) (nField w) := by
  unfold classify8
  split <;> simp_all [family8Holes, ← BitVec.toNat_inj]

theorem classifyE_of_hole (notSkp : nnField w ≠ 0x9E#8) (notSknp : nnField w ≠ 0xA1#8) :
    classifyE w = .illegalE (xField w) (nnField w) := by
  rw [classifyE, if_neg notSkp, if_neg notSknp]

theorem classifyF_of_hole (hole : nnField w ∉ familyFCodes) : classifyF w = .illegalF (xField w) (nnField w) := by
  unfold classifyF
  split <;> simp_all [familyFCodes, ← BitVec.toNat_inj]

end

/-- An instruction row decodes by its opcode and selector; an illegal row is well-formed only in a hole. -/
theorem decodeWord_encodeWord {i : Instr} (wf : i.wellFormed = true) : decodeWord (encodeWord i) = i := by
  cases i with
  | cls | ret => rfl
  | illegal0 nnn =>
    simp only [Instr.wellFormed, Bool.and_eq_true, bne_iff_ne, ne_eq] at wf
    simp [encodeWord, decodeWord, classify0_of_hole, wf]
  | illegal5 x y n | illegal9 x y n =>
    simp only [Instr.wellFormed, bne_iff_ne, ne_eq] at wf
    simp [encodeWord, decodeWord, wf]
  | illegal8 x y n =>
    simp only [Instr.wellFormed, List.contains_iff_mem] at wf
    simp [encodeWord, decodeWord, classify8_of_hole, wf]
  | illegalE x nn =>
    simp only [Instr.wellFormed, Bool.and_eq_true, bne_iff_ne, ne_eq] at wf
    simp [encodeWord, decodeWord, classifyE_of_hole, wf]
  | illegalF x nn =>
    simp only [Instr.wellFormed, Bool.not_eq_true', List.contains_eq_mem, decide_eq_false_iff_not] at wf
    simp [encodeWord, decodeWord, classifyF_of_hole, wf]
  | _ => simp [encodeWord, decodeWord, classify8, classifyE, classifyF]

/-- Settles O1: the two bytes are put together to the word that the encoder cut, and that word decodes to the term. -/
theorem decodeOfEncodeIsIdentity : Obligations.DecodeOfEncodeIsIdentity := by
  intro i rest wf
  change Except.ok (decodeWord (wordOfBytes _ _), rest) = _
  rw [wordOfBytes_bytesOfWord, decodeWord_encodeWord wf]

/-- Settles O3: twelve closed words, decoded. -/
theorem specWordsDecode : Obligations.SpecWordsDecode := by
  refine ⟨?_, ?_, ?_, ?_, ?_, ?_, ?_, ?_, ?_, ?_, ?_, ?_⟩ <;> decide

namespace Machine

/-! ## Words that select no instruction (R69) -/

/-- The error kind that an illegal row raises in the decode phase (R69, R92); an instruction row raises none there. -/
def decodeError : Instr → Option ErrorKind
  | .illegal5 _ _ _ | .illegal8 _ _ _ | .illegal9 _ _ _ => some .invalidEncoding
  | .illegal0 _ | .illegalE _ _ | .illegalF _ _ => some .unsupportedInstruction
  | _ => none

theorem exec_of_decodeError {i : Instr} {k : ErrorKind} (h : decodeError i = some k) (s : State) :
    exec i s = .next (s.haltedWith k) := by
  cases i with
  | illegal0 | illegal5 | illegal8 | illegal9 | illegalE | illegalF => cases h; rfl
  | _ => cases h

/-- The two kinds of the decode phase are raised by no instruction row (R200). -/
theorem executeError_of_decodeError_none {i : Instr} (h : decodeError i = none) (s : State) :
    executeError i s ≠ some .invalidEncoding ∧ executeError i s ≠ some .unsupportedInstruction := by
  unfold executeError
  split <;> simp_all [decodeError]

section
variable (w : Word)

theorem classify0_decodeError : decodeError (classify0 w) =
    if (nnnField w).toNat = 0x0E0 ∨ (nnnField w).toNat = 0x0EE then none else some .unsupportedInstruction := by
  unfold classify0
  split
  · next cls => simp [cls, decodeError]
  split
  · next ret => simp [ret, decodeError]
  · simp_all [← BitVec.toNat_inj, decodeError]

theorem classify8_decodeError : decodeError (classify8 w) =
    if (nField w).toNat ∈ [0x8, 0x9, 0xA, 0xB, 0xC, 0xD, 0xF] then some .invalidEncoding else none := by
  unfold classify8
  split
  case h_10 =>
    have bound := (nField w).isLt
    simp only [imp_false] at *
    rw [if_pos (by simp only [List.mem_cons, List.not_mem_nil, or_false]; omega)]
    rfl
  all_goals next selector => simp [selector, decodeError]

theorem classifyE_decodeError : decodeError (classifyE w) =
    if (nnField w).toNat = 0x9E ∨ (nnField w).toNat = 0xA1 then none else some .unsupportedInstruction := by
  unfold classifyE
  split
  · next skp => simp [skp, decodeError]
  split
  · next sknp => simp [sknp, decodeError]
  · simp_all [← BitVec.toNat_inj, decodeError]

theorem classifyF_decodeError : decodeError (classifyF w) =
    if (nnField w).toNat ∈ [0x06, 0x0A, 0x15, 0x18, 0x1E, 0x29, 0x33, 0x55, 0x65] then none
    else some .unsupportedInstruction := by
  unfold classifyF
  split
  case h_10 => simp_all [decodeError]
  all_goals next code => simp [code, decodeError]

/-- The spec's table of illegal words, in numbers, and the decoder agree family by family. -/
theorem decodeError_decodeWord : decodeError (decodeWord w) = wordError w.toNat := by
  have bound := w.isLt
  have family : w.toNat / 4096 = (opcodeField w).toNat := by rw [opcodeField_toNat]; omega
  unfold wordError
  rw [family, ← nnnField_toNat, ← nnField_toNat, ← nField_toNat]
  unfold decodeWord
  split
  case h_1 opcode => rw [opcode]; exact classify0_decodeError w
  case h_9 opcode => rw [opcode]; exact classify8_decodeError w
  case h_15 opcode => rw [opcode]; exact classifyE_decodeError w
  case h_16 =>
    simp only [imp_false] at *
    have opcode : (opcodeField w).toNat = 0xF := by omega
    rw [opcode]
    exact classifyF_decodeError w
  case h_6 opcode | h_10 opcode =>
    rw [opcode, apply_ite decodeError]
    simp only [decodeError, ← BitVec.toNat_inj, BitVec.toNat_ofNat]
  all_goals next opcode => rw [opcode]; rfl

end

/-- Settles O5: the kind of a word is that of the row it decodes to, and an illegal row does nothing but raise it. -/
theorem illegalWordsHalt : Obligations.IllegalWordsHalt := by
  intro w s
  rw [← decodeError_decodeWord]
  exact ⟨fun k raised => exec_of_decodeError raised s, fun legal => executeError_of_decodeError_none legal s⟩

/-- Settles O6: each row's rule is one halt. -/
theorem illegalRowsRaise : Obligations.IllegalRowsRaise := by
  intro s x y n nn nnn
  constructor
  · rintro i (rfl | rfl | rfl) <;> exact ⟨_, rfl, rfl, rfl, keeps_haltedWith s rfl _⟩
  · rintro i (rfl | rfl | rfl) <;> exact ⟨_, rfl, rfl, rfl, keeps_haltedWith s rfl _⟩

end Machine

end Sys2Proof
end

section
/-! What an executed instruction can do, said once (40_dispatcher.md R92, R93; 60_exceptions.md R200, R201): it halts with
the kind that the error table names, or leaves the state that its rule's writes make. Every statement over all
instructions is two small goals after `exec_next`. -/

namespace Sys2Proof.Machine

/-- The state that an instruction's rule leaves when it raises no error (`exec_of_noError`), as the writes it is made
of. An illegal row always raises its error, so that its state here is never one that a step answers. -/
def completed (i : Instr) (s : State) : State :=
  match i with
  | .cls => (s.setFb (Vector.replicate 32 0#64)).emit .clear
  | .ret => (s.setSp (s.sp - 1#5)).setPc ((s.stack[s.sp.toNat - 1]?).getD s.pc)
  | .jp nnn => s.setPc (addrOf nnn)
  | .call nnn => ((s.setEntry s.sp.toNat s.pc).setSp (s.sp + 1#5)).setPc (addrOf nnn)
  | .seImm x nn => s.skipIf (s.reg x == nn)
  | .sneImm x nn => s.skipIf (s.reg x != nn)
  | .seReg x y => s.skipIf (s.reg x == s.reg y)
  | .sneReg x y => s.skipIf (s.reg x != s.reg y)
  | .ldImm x nn => s.setReg x nn
  | .addImm x nn => s.setReg x (s.reg x + nn)
  | .ldReg x y => s.setReg x (s.reg y)
  | .orReg x y => s.setReg x (s.reg x ||| s.reg y)
  | .andReg x y => s.setReg x (s.reg x &&& s.reg y)
  | .xorReg x y => s.setReg x (s.reg x ^^^ s.reg y)
  | .addReg x y => flagThen s (carryFlag (s.reg x) (s.reg y)) x fun _ => sumLow (s.reg x) (s.reg y)
  | .sub x y => subtract s x x y
  | .subn x y => subtract s x y x
  | .shr x _ => flagThen s (lowBitFlag (s.reg x)) x fun t => t.reg x >>> 1
  | .shl x _ => flagThen s (highBitFlag (s.reg x)) x fun t => t.reg x <<< 1
  | .ldI nnn => s.setI (addrOf nnn)
  | .jpV0 nnn => s.setPc (wide (s.reg 0#4) + addrOf nnn)
  | .rnd x nn => (s.setReg x (Config.drawByte s.answers &&& nn)).countAnswer
  | .drw x y n =>
    { s with
      v := (drawSprite s x y n).v
      fb := (drawSprite s x y n).fb
      events := (drawSprite s x y n).events }
  | .skp x => (s.skipIf (Config.keyDown s.answers (s.reg x))).countAnswer
  | .sknp x => (s.skipIf (!Config.keyDown s.answers (s.reg x))).countAnswer
  | .ldVxDT x => s.setReg x s.dt
  | .ldVxK x => s.setPhase (.waitKey x)
  | .ldDTVx x => s.setDt (s.reg x)
  | .ldSTVx x => s.setSt (s.reg x)
  | .addI x => s.setI (s.i + wide (s.reg x))
  | .ldF x => s.setI (digitAddr (s.reg x))
  | .ldB x => s.setMem (((s.mem.write (s.baseOffset 0) (hundreds (s.reg x))).write
      (s.baseOffset 1) (tens (s.reg x))).write (s.baseOffset 2) (ones (s.reg x)))
  | .ldMemVx x => s.setMem (storeRegs s (x.toNat + 1))
  | .ldVxMem x => { s with v := (loadRegs s (x.toNat + 1)).v }
  | .illegal0 _ | .illegal5 _ _ _ | .illegal8 _ _ _ | .illegal9 _ _ _ | .illegalE _ _ | .illegalF _ _ => s

/-- DRW changes the registers, the framebuffer and the event stream only (R161). -/
theorem drawSprite_eq_completed (s : State) (x y : Reg) (n : Imm4) : drawSprite s x y n = completed (.drw x y n) s := by
  simp only [completed, drawSprite, finishDrawing]
  split <;> rfl

/-! ## The error table decides -/

/-- A row of the error table that raises a kind under one condition. -/
theorem raised_when {c : Prop} [Decidable c] {kind k : ErrorKind} (h : (if c then some kind else none) = some k) :
    c ∧ kind = k := by simpa using h

theorem not_raised_when {c : Prop} [Decidable c] {kind : ErrorKind} (h : (if c then some kind else none) = none) :
    ¬ c := by simpa using h

theorem exec_of_error {i : Instr} {s : State} {k : ErrorKind} (h : executeError i s = some k) :
    exec i s = .next (s.haltedWith k) := by
  cases i with
  | ret =>
    obtain ⟨empty, rfl⟩ := raised_when h
    exact exec_ret_underflow empty
  | call nnn =>
    obtain ⟨full, rfl⟩ := raised_when h
    exact exec_call_overflow full nnn
  | ldF x =>
    obtain ⟨invalid, rfl⟩ := raised_when h
    exact exec_ldF_invalid invalid
  | ldB x =>
    obtain ⟨outside, rfl⟩ := raised_when h
    exact exec_ldB_fault x outside
  | ldMemVx x =>
    obtain ⟨outside, rfl⟩ := raised_when h
    exact exec_ldMemVx_fault outside
  | ldVxMem x =>
    obtain ⟨outside, rfl⟩ := raised_when h
    exact exec_ldVxMem_fault outside
  | drw x y n =>
    obtain ⟨⟨drawn, outside⟩, rfl⟩ := raised_when h
    exact exec_drw_fault x drawn outside
  | _ => cases h <;> rfl

/-- Without an error the rule's writes are done, RET's only where the popped entry exists (log 16). -/
theorem exec_of_noError {i : Instr} {s : State} (h : executeError i s = none) (entry : i = .ret → s.sp.toNat ≤ 16) :
    exec i s = .next (completed i s) := by
  cases i with
  | ret =>
    have nonempty := not_raised_when h
    have high := entry rfl
    rw [exec_ret_pop (Nat.pos_of_ne_zero nonempty) high, completed, Vector.getElem?_eq_getElem, Option.getD_some]
  | call nnn => exact exec_call_push (Nat.lt_of_not_le (not_raised_when h)) nnn
  | ldF x => exact exec_ldF_digit (Nat.lt_of_not_le (not_raised_when h))
  | ldB x => exact exec_ldB_store x (Nat.le_of_not_lt (not_raised_when h))
  | ldMemVx x => exact exec_ldMemVx_store (Nat.le_of_not_lt (not_raised_when h))
  | ldVxMem x =>
    rw [exec_ldVxMem_load (Nat.le_of_not_lt (not_raised_when h)), completed, ← loadRegs_frame]
  | drw x y n =>
    have drawn := not_raised_when h
    rw [exec_drw_eq_drawSprite x (by simp only [memLast]; omega), drawSprite_eq_completed]
  | illegal0 | illegal5 | illegal8 | illegal9 | illegalE | illegalF => cases h
  | _ => rfl

/-- Everything an instruction that answers a next state can have done. -/
theorem exec_next {i : Instr} {s t : State} (h : exec i s = .next t) :
    (∃ k, executeError i s = some k ∧ t = s.haltedWith k) ∨ (executeError i s = none ∧ t = completed i s) := by
  cases error : executeError i s with
  | some k =>
    rw [exec_of_error error] at h
    injection h with halted
    exact Or.inl ⟨k, rfl, halted.symm⟩
  | none =>
    have entry : i = .ret → s.sp.toNat ≤ 16 := by
      rintro rfl
      by_contra above
      rw [exec_ret_absent (Nat.lt_of_not_le above)] at h
      cases h
    rw [exec_of_noError error entry] at h
    injection h with done
    exact Or.inr ⟨rfl, done.symm⟩

/-- A change of the state that the error table does not see commutes with an instruction when it commutes with its halt
and with its completion. -/
theorem exec_commutes {f : State → State} {i : Instr} {s : State} (sameSp : (f s).sp = s.sp)
    (sameError : executeError i (f s) = executeError i s)
    (halt : ∀ k, (f s).haltedWith k = f (s.haltedWith k))
    (complete : executeError i s = none → completed i (f s) = f (completed i s)) :
    exec i (f s) = onNext f (exec i s) := by
  cases error : executeError i s with
  | some k => rw [exec_of_error error, exec_of_error (sameError.trans error), halt, onNext_next]
  | none =>
    by_cases entry : i = .ret → s.sp.toNat ≤ 16
    · rw [exec_of_noError error entry, exec_of_noError (sameError.trans error) (by rwa [sameSp]), complete error,
        onNext_next]
    · obtain ⟨rfl, absent⟩ := Classical.not_imp.mp entry
      have above := Nat.lt_of_not_le absent
      rw [exec_ret_absent above, exec_ret_absent (by rwa [sameSp])]
      rfl

end Sys2Proof.Machine
end

section
/-! Proofs of the statements on every step O11, O13, O16 and O17 (10_state.md R32; 60_exceptions.md R200 to R203;
70_reset_and_hazards.md R236): what a completed rule leaves of the fields an invariant speaks of, then each transition. -/

namespace Sys2Proof.Machine

/-! ## Errors and stops -/

theorem completed_err (i : Instr) (s : State) : (completed i s).err = s.err := by
  cases i <;> rfl

/-- A completed rule halts nothing; LD Vx, K alone writes `PHASE` (R175). -/
theorem completed_phase_ne_halted (i : Instr) {s : State} (h : s.phase ≠ .halted) :
    (completed i s).phase ≠ .halted := by
  cases i with
  | ldVxK x => exact Phase.noConfusion
  | _ => exact h

theorem exec_next_of_sp_le (i : Instr) {s : State} (bound : s.sp.toNat ≤ 16) : ∃ t, exec i s = .next t := by
  cases error : executeError i s with
  | some k => exact ⟨_, exec_of_error error⟩
  | none => exact ⟨_, exec_of_noError error fun _ => bound⟩

/-- Settles O16: a transition stops only where the instruction it runs does, and RET alone can. -/
theorem noStepStops : Obligations.NoStepStops := by
  intro s bound
  rcases schedule_cases s.schedule with offered | ⟨rest, e⟩ | ⟨key, rest, e⟩ | ⟨image, rest, e⟩
  · by_cases run : s.phase = .run
    · cases fetch : s.canFetch with
      | true =>
        obtain ⟨t, executed⟩ := exec_next_of_sp_le (decodeWord s.fetchWord) (s := s.started) bound
        exact ⟨t, (transition_of_running ⟨run, offered⟩ fetch).trans executed⟩
      | false => exact ⟨_, transition_of_fetchFault ⟨run, offered⟩ fetch⟩
    · exact ⟨_, transition_of_idle offered run⟩
  · exact ⟨_, transition_of_tick e⟩
  · exact ⟨_, transition_of_keyPress e⟩
  · exact ⟨_, transition_of_reset e⟩

/-- Settles O17: the error table decides between the halt and the completed rule, which leaves `ERR`. -/
theorem errorsAreExact : Obligations.ErrorsAreExact := by
  intro s running inside bound
  have stepped : step s = exec (decodeWord s.fetchWord) s.started :=
    transition_of_running running (s.canFetch_iff.mpr inside)
  have notHalted : s.started.phase ≠ .halted := by
    rw [State.started_phase, running.1]
    exact Phase.noConfusion
  refine ⟨fun k error => stepped.trans (exec_of_error error), fun noError => ?_⟩
  exact ⟨_, stepped.trans (exec_of_noError noError fun _ => bound), completed_phase_ne_halted _ notHalted,
    completed_err _ _⟩

/-! ## `SP`, `ERR` and the canonical memory (R32) -/

/-- The three memory writers write in bounds when they raise no error (R43). -/
theorem completed_mem_wf {i : Instr} {s : State} (noError : executeError i s = none) (wf : s.mem.wf) :
    (completed i s).mem.wf := by
  cases i with
  | ldB x =>
    have inside := not_raised_when noError
    refine Memory.wf_write (Memory.wf_write (Memory.wf_write wf ?_ _) ?_ _) ?_ _ <;>
      simp only [State.baseOffset_eq, memSize] <;> omega
  | ldMemVx x =>
    have inside := not_raised_when noError
    exact storeRegs_wf wf (by simp only [memSize]; omega)
  | _ => exact wf

/-- An error, in any phase, sets `ERR` and `PHASE` together. -/
theorem haltedWith_consistent {s : State} (h : s.Consistent) (k : ErrorKind) : (s.haltedWith k).Consistent := by
  obtain ⟨bound, -, wf⟩ := h
  exact ⟨bound, by simp, wf⟩

theorem tick_consistent {s : State} (h : s.Consistent) : s.tick.Consistent := by
  unfold State.tick
  split <;> exact h

theorem pressKey_consistent {s : State} (h : s.Consistent) (key : BitVec 4) : (s.pressKey key).Consistent := by
  obtain ⟨bound, status, wf⟩ := h
  unfold State.pressKey
  split
  · next waiting => exact ⟨bound, by simpa [waiting] using status, wf⟩
  all_goals exact ⟨bound, status, wf⟩

theorem restart_consistent (s : State) (image : Image) : (s.restart image).Consistent :=
  ⟨by simp [State.restart_sp], by simp [State.restart, State.reset], s.restart_wf image⟩

theorem exec_consistent {i : Instr} {s t : State} (h : exec i s = .next t) (running : s.phase = .run)
    (consistent : s.Consistent) : t.Consistent := by
  obtain ⟨bound, status, wf⟩ := consistent
  have low := exec_sp_le h bound
  have notHalted : s.phase ≠ .halted := by simp [running]
  rcases exec_next h with ⟨k, -, rfl⟩ | ⟨noError, rfl⟩
  · exact haltedWith_consistent ⟨bound, status, wf⟩ k
  · have same := completed_phase_ne_halted i notHalted
    exact ⟨low, by rw [completed_err]; tauto, completed_mem_wf noError wf⟩

/-- Settles O11: each of the six forms of a transition keeps the three clauses. -/
theorem stepKeepsConsistent : Obligations.StepKeepsConsistent := by
  intro s t consistent h
  rcases transition_next h with ⟨⟨run, -⟩, -, executed⟩ | ⟨-, -, rfl⟩ | ⟨-, rfl⟩ | ⟨rest, -, rfl⟩ |
    ⟨key, rest, -, rfl⟩ | ⟨image, rest, -, rfl⟩
  · exact exec_consistent (s := s.started) executed run consistent
  · exact haltedWith_consistent (s := s.setSchedule s.schedule.tail) consistent _
  · exact consistent
  · exact tick_consistent (s := s.setSchedule rest) consistent
  · exact pressKey_consistent (s := s.setSchedule rest) consistent key
  · exact restart_consistent _ image

/-! ## The framebuffer and the event stream (R236) -/

theorem replay_append (events : List DisplayEvent) (e : DisplayEvent) :
    replay (events ++ [e]) = e.applyTo (replay events) := by
  simp [replay]

theorem finishDrawing_events (s : State) (count : Nat) (d : Drawing) :
    (finishDrawing s count d).events = if count > 0 then s.events ++ [.regionUpdated d.rows] else s.events := by
  unfold finishDrawing
  split <;> rfl

/-- The event of a drawing describes its change of the framebuffer; without a drawn row there is neither. -/
theorem drawSprite_replayed (s : State) (x y : Reg) (n : Imm4) (h : s.Replayed) : (drawSprite s x y n).Replayed := by
  have drawn := drawRows_drawn s (s.reg x) _ _ (rowsDrawn_inside s y n)
  rw [State.Replayed] at h ⊢
  rw [drawSprite, finishDrawing_fb, finishDrawing_events]
  split
  · rw [replay_append, h]
    exact drawn.replayed
  · next nothing =>
    rw [Nat.eq_zero_of_not_pos nothing]
    exact h

theorem completed_replayed (i : Instr) {s : State} (h : s.Replayed) : (completed i s).Replayed := by
  cases i with
  | cls => exact replay_append _ _
  | drw x y n => exact drawSprite_replayed s x y n h
  | _ => exact h

theorem exec_replayed {i : Instr} {s t : State} (executed : exec i s = .next t) (h : s.Replayed) : t.Replayed := by
  rcases exec_next executed with ⟨k, -, rfl⟩ | ⟨-, rfl⟩
  · exact h
  · exact completed_replayed i h

/-- Settles O13: CLS and DRW emit what they draw, a reset starts both anew, and nothing else touches either. -/
theorem stepKeepsReplay : Obligations.StepKeepsReplay := by
  intro s t replayed h
  rcases transition_next h with ⟨-, -, executed⟩ | ⟨-, -, rfl⟩ | ⟨-, rfl⟩ | ⟨rest, -, rfl⟩ | ⟨key, rest, -, rfl⟩ |
    ⟨image, rest, -, rfl⟩
  · exact exec_replayed (s := s.started) executed replayed
  · exact replayed
  · exact replayed
  · unfold State.tick
    split <;> exact replayed
  · unfold State.pressKey
    split <;> exact replayed
  · exact rfl

end Sys2Proof.Machine
end

section
/-! Proofs of the transition statements O8, O9, O10, O14 and O46 (40_dispatcher.md R95; 45_input_random_timers.md R175,
R178; 60_exceptions.md R206; 70_reset_and_hazards.md R230 to R233): Tick, the key press and the reset by `PHASE`. -/

namespace Sys2Proof.Machine

/-! ## Tick and the key press -/

/-- The subtraction of numbers stops at 0 as the timer does (R178). -/
theorem tickDown_eq_ofNat (t : Byte) : tickDown t = BitVec.ofNat 8 (t.toNat - 1) := by
  have bound := t.isLt
  unfold tickDown
  split
  · next zero => rw [zero]; rfl
  · next nonzero =>
    have positive : t.toNat ≠ 0 := fun zero => nonzero (BitVec.eq_of_toNat_eq zero)
    apply BitVec.eq_of_toNat_eq
    rw [BitVec.toNat_sub, BitVec.toNat_ofNat, BitVec.toNat_ofNat]
    omega

theorem State.tick_of_not_halted {s : State} (h : s.phase ≠ .halted) :
    s.tick = (s.setDt (tickDown s.dt)).setSt (tickDown s.st) := by
  unfold State.tick
  split
  · next halted => exact absurd halted h
  all_goals rfl

theorem State.tick_of_halted {s : State} (h : s.phase = .halted) : s.tick = s := by simp [State.tick, h]

theorem State.pressKey_of_waitKey {s : State} {x : Reg} (h : s.phase = .waitKey x) (key : BitVec 4) :
    s.pressKey key = (s.setReg x (key.zeroExtend 8)).setPhase .run := by simp [State.pressKey, h]

theorem State.pressKey_of_not_waitKey {s : State} (h : ∀ x, s.phase ≠ .waitKey x) (key : BitVec 4) :
    s.pressKey key = s := by
  unfold State.pressKey
  split
  · next x waiting => exact absurd waiting (h x)
  all_goals rfl

theorem keeps_setPhase {f : Footprint} (s : State) (allowed : f.waits = true) (p : Phase) :
    Keeps f s (s.setPhase p) := by simp [Keeps, allowed]

theorem keeps_setSchedule {f : Footprint} (s : State) (allowed : f.schedule = true) (moves : List Move) :
    Keeps f s (s.setSchedule moves) := by simp [Keeps, allowed]

/-! ## The transitions of a waiting and of a halted machine -/

/-- The key press that ends a wait (R175). -/
theorem step_keyPress_of_waitKey {s : State} {x : Reg} {key : BitVec 4} {rest : List Move}
    (waiting : s.phase = .waitKey x) (pressed : s.schedule = .keyPress key :: rest) :
    step s = .next (((s.setSchedule rest).setReg x (key.zeroExtend 8)).setPhase .run) := by
  rw [step, transition_of_keyPress pressed, State.pressKey_of_waitKey (s := s.setSchedule rest) waiting]

/-- HALTED uses the offer up and does nothing with it, unless it is a reset (R206). -/
theorem step_of_halted {s : State} (halted : s.phase = .halted)
    (noReset : ∀ image, s.schedule.head? ≠ some (.reset image)) :
    step s = .next (s.setSchedule s.schedule.tail) := by
  rcases schedule_cases s.schedule with offered | ⟨rest, e⟩ | ⟨key, rest, e⟩ | ⟨image, rest, e⟩
  · exact transition_of_idle offered (by simp [halted])
  · rw [step, transition_of_tick e, State.tick_of_halted (s := s.setSchedule rest) halted, e, List.tail_cons]
  · rw [step, transition_of_keyPress e, State.pressKey_of_not_waitKey (by simp [halted]), e, List.tail_cons]
  · exact absurd (by rw [e, List.head?_cons]) (noReset image)

/-- Settles O8: one equation of the transition for each row of R95. -/
theorem transitionTable : Obligations.TransitionTable := by
  intro s rest
  refine ⟨fun live e => ?_, fun key run e => ?_, fun x key waiting e => ?_, fun x waiting offered => ?_, step_of_halted⟩
  · rw [step, transition_of_tick e, State.tick_of_not_halted (s := s.setSchedule rest) live, tickDown_eq_ofNat,
      tickDown_eq_ofNat]
    rfl
  · rw [step, transition_of_keyPress e, State.pressKey_of_not_waitKey (by simp [run])]
    rfl
  · refine ⟨_, step_keyPress_of_waitKey waiting e, ?_, rfl, rfl, ?_⟩
    · rw [State.setPhase_reg, State.reg_setReg_same, BitVec.ofNat_toNat]
    · exact ((keeps_setSchedule s rfl _).trans (keeps_setReg _ (List.mem_singleton_self x) _)).trans
        (keeps_setPhase _ rfl _)
  · exact transition_of_idle offered (by simp [waiting])

theorem run_succ_of_next (M : Host.Core) {s t : M.State} (h : M.step s = .next t) (n : Nat) :
    M.run (n + 1) s = M.run n t := by
  rw [Host.Core.run, h]

/-- Settles O9, by induction on the number of steps: each uses one move up, and no reset comes among those left. -/
theorem haltedStaysHalted : Obligations.HaltedStaysHalted := by
  intro n
  induction n with
  | zero => intro s _ _; rfl
  | succ n ih =>
    intro s halted noReset
    have noResetNext : ∀ image, s.schedule.head? ≠ some (.reset image) := fun image first =>
      noReset image (List.mem_of_mem_head? first)
    have noResetLater : ∀ image, .reset image ∉ (s.setSchedule s.schedule.tail).schedule := fun image later =>
      noReset image (List.mem_of_mem_tail later)
    calc core.run (n + 1) s
        = core.run n (s.setSchedule s.schedule.tail) := run_succ_of_next core (step_of_halted halted noResetNext) n
      _ = .next { s with schedule := s.schedule.tail.drop n } := ih _ halted noResetLater
      _ = .next { s with schedule := s.schedule.drop (n + 1) } := by rw [List.drop_tail]

/-- Settles O46: LD Vx, K is one write of `PHASE`, and the transition of WAIT_KEY on a key press does the rest. -/
theorem waitForKeyTakesNextPress : Obligations.WaitForKeyTakesNextPress := by
  intro x s
  refine ⟨s.setPhase (.waitKey x), rfl, rfl, keeps_setPhase s rfl _, fun key rest => ?_⟩
  refine ⟨_, step_keyPress_of_waitKey (x := x) rfl rfl, ?_, rfl, rfl, ?_⟩
  · have bound := key.isLt
    rw [State.setPhase_reg, State.reg_setReg_same, BitVec.toNat_setWidth]
    omega
  · exact ((keeps_setSchedule _ rfl _).trans (keeps_setReg _ (List.mem_singleton_self x) _)).trans
      (keeps_setPhase _ rfl _)

/-! ## Reset -/

/-- Above the font table nothing is loaded but the image (R231, R233). -/
theorem Memory.unlisted_of_ge {a : Nat} (h : 0x50 ≤ a) : Memory.unlisted a = 0x00#8 := by
  rw [Memory.unlisted, List.getD_eq_default _ _ h]

/-- Settles O10: the fields are those of the reset state, and memory is read region by region. -/
theorem resetLoadsImage : Obligations.ResetLoadsImage := by
  intro s image rest e
  have read := (s.setSchedule rest).restart_read image
  refine ⟨_, transition_of_reset e, fun k => ?_, rfl, rfl, rfl, rfl, rfl, fun k a entry => ?_, fun r => ?_, rfl, rfl,
    rfl, rfl, State.restart_wf _ image, fun k b listed => ?_, fun k b listed => ?_, fun a low high => ?_,
    fun a low high => ?_⟩
  · exact Vector.getElem_replicate _
  · obtain ⟨_, rfl⟩ := Vector.getElem?_eq_some_iff.mp entry
    exact Vector.getElem_replicate _
  · exact Vector.getElem_replicate _
  · rw [read, progBase, if_pos (by omega), Nat.add_sub_cancel_left, listed, Option.getD_some]
  · have short : k < 0x50 := (List.getElem?_eq_some_iff.mp listed).1
    rw [read, progBase, if_neg (by omega), Memory.unlisted, List.getD_eq_getElem?_getD, listed, Option.getD_some]
  · rw [read, progBase, if_neg (by omega), Memory.unlisted_of_ge low]
  · have beyond : image.bytes[a - 0x200]? = none := List.getElem?_eq_none (by omega)
    rw [read, progBase, if_pos (by omega), beyond, Option.getD_none, Memory.unlisted_of_ge (by omega)]

/-- Settles O14: the schedule is in none of the three invariants, and the other fields are the reset values. -/
theorem resetIsSound : Obligations.ResetIsSound := by
  intro moves
  have noEntry : State.reset.sp.toNat ≤ 16 := by decide
  have status : State.reset.err ≠ none ↔ State.reset.phase = .halted := by decide
  have pc : State.reset.pc.toNat ≤ 0x10FE := by decide
  exact ⟨⟨noEntry, status, Memory.wf_nil⟩, ⟨pc, noEntry, fun k live => absurd live (Nat.not_lt_zero k)⟩, rfl⟩

end Sys2Proof.Machine
end

section
/-! Proofs of the statements O12, O18, O19 and O21 (10_state.md R12, R16, R17; 20_memory.md section 5): what a completed
rule leaves in `PC`, on the stack and in the flag, and which instruction a changed field names. -/

namespace Sys2Proof.Machine

/-! ## `PC` (R16) -/

/-- An error of the execute phase leaves `PC` advanced: the table's other branch. -/
theorem pcAfter_of_error {i : Instr} {s : State} {k : ErrorKind} (h : executeError i s = some k) :
    pcAfter i s = s.pc := by
  cases i with
  | ret => exact if_pos (raised_when h).1
  | call nnn => exact if_pos (raised_when h).1
  | ldF | ldB | ldMemVx | ldVxMem | drw => rfl
  | _ => cases h <;> rfl

theorem completed_pc {i : Instr} {s : State} (noError : executeError i s = none) :
    (completed i s).pc = pcAfter i s := by
  cases i with
  | ret => exact (if_neg (not_raised_when noError)).symm
  | call nnn => exact (if_neg (not_raised_when noError)).symm
  | jpV0 nnn =>
    apply BitVec.eq_of_toNat_eq
    rw [completed, State.setPc_pc, pcAfter, ← offsetTarget_toNat, BitVec.ofNat_toNat, BitVec.setWidth_eq]
  | seImm | sneImm | seReg | sneReg | skp | sknp => simp [completed, pcAfter]
  | _ => rfl

theorem exec_pc {i : Instr} {s t : State} (h : exec i s = .next t) : t.pc = pcAfter i s := by
  rcases exec_next h with ⟨k, error, rfl⟩ | ⟨noError, rfl⟩
  · exact (pcAfter_of_error error).symm
  · exact completed_pc noError

/-- Settles O18: an executed instruction by the table, the other transitions by their equations. -/
theorem pcTable : Obligations.PcTable := by
  refine ⟨fun i s t h => exec_pc h, fun s t running outside h => ?_, fun s t x key waiting first h => ?_,
    fun s t halted noReset h => ?_⟩
  · have faulted := transition_of_fetchFault (run := exec) running (s.canFetch_eq_false_iff.mpr outside)
    cases faulted.symm.trans h
    exact ⟨rfl, rfl⟩
  · obtain ⟨rest, e⟩ := List.head?_eq_some_iff.mp first
    cases (step_keyPress_of_waitKey waiting e).symm.trans h
    exact ⟨rfl, rfl⟩
  · cases (step_of_halted halted noReset).symm.trans h
    rfl

/-! ## The bound on `PC` and on return addresses (R17) -/

/-- Every live return address lies in the address space. -/
def State.EntriesBounded (s : State) : Prop :=
  ∀ k, k < s.sp.toNat → ∀ a, s.stack[k]? = some a → a.toNat ≤ 0xFFF

/-- From a `PC` that was fetched at, the highest target is that of JP V0 (R107). -/
theorem pcAfter_le (i : Instr) {s : State} (fetched : s.pc.toNat ≤ 0xFFF) (entries : s.EntriesBounded) :
    (pcAfter i s).toNat ≤ 0x10FE := by
  have skipped : (s.pc + 2#16).toNat ≤ 0x10FE := by
    rw [BitVec.toNat_add, BitVec.toNat_ofNat]
    omega
  have kept : s.pc.toNat ≤ 0x10FE := by omega
  have target : ∀ nnn : Imm12, (addrOf nnn).toNat ≤ 0x10FE := fun nnn => by
    have bound := nnn.isLt
    rw [addrOf_toNat]
    omega
  have skip : ∀ (c : Prop) [Decidable c], (if c then s.pc + 2#16 else s.pc).toNat ≤ 0x10FE := fun c _ => by
    split <;> assumption
  cases i with
  | jp nnn => exact target nnn
  | jpV0 nnn =>
    have offset := (s.reg 0#4).isLt
    have bound := nnn.isLt
    rw [pcAfter, BitVec.toNat_ofNat]
    omega
  | call nnn =>
    simp only [pcAfter]
    split
    · exact kept
    · exact target nnn
  | ret =>
    simp only [pcAfter]
    split
    · exact kept
    · next nonempty =>
      cases entry : s.stack[s.sp.toNat - 1]? with
      | none => exact kept
      | some a => exact (entries _ (by omega) a entry).trans (by decide)
  | seImm | sneImm | seReg | sneReg | skp | sknp => exact skip _
  | _ => exact kept

/-- CALL pushes the address after a fetched instruction, RET gives an entry back, and no other rule has to do with it. -/
theorem completed_entriesBounded {i : Instr} {s : State} (noError : executeError i s = none)
    (fetched : s.pc.toNat ≤ 0xFFF) (entries : s.EntriesBounded) : (completed i s).EntriesBounded := by
  cases i with
  | call nnn =>
    have room := not_raised_when noError
    have counted : (s.sp + 1#5).toNat = s.sp.toNat + 1 := by
      rw [BitVec.toNat_add, BitVec.toNat_ofNat]
      omega
    intro k live a entry
    simp only [completed, State.setPc_sp, State.setSp_sp, counted] at live
    simp only [completed, State.setPc_stack, State.setSp_stack, State.setEntry_stack] at entry
    by_cases top : s.sp.toNat = k
    · subst top
      rw [Vector.getElem?_setIfInBounds_self_of_lt (by omega)] at entry
      cases entry
      exact fetched
    · rw [Vector.getElem?_setIfInBounds_ne top] at entry
      exact entries k (by omega) a entry
  | ret =>
    have nonempty := not_raised_when noError
    have popped : (s.sp - 1#5).toNat = s.sp.toNat - 1 :=
      BitVec.toNat_sub_of_le (BitVec.le_def.mpr (Nat.pos_of_ne_zero nonempty))
    intro k live a entry
    have live : k < (s.sp - 1#5).toNat := live
    exact entries k (by omega) a entry
  | _ => exact entries

/-- Settles O12: an instruction is run only from a fetched `PC`, and a fetch that fails leaves `PC` where it was. -/
theorem stepKeepsPcBounded : Obligations.StepKeepsPcBounded := by
  intro s t bounded h
  obtain ⟨pc, bound, entries⟩ := bounded
  rcases transition_next h with ⟨-, fetch, executed⟩ | ⟨-, -, rfl⟩ | ⟨-, rfl⟩ | ⟨rest, -, rfl⟩ | ⟨key, rest, -, rfl⟩ |
    ⟨image, rest, -, rfl⟩
  · have inside := s.canFetch_iff.mp fetch
    have fetched : s.started.pc.toNat ≤ 0xFFF := by
      rw [State.started_pc, BitVec.toNat_add, BitVec.toNat_ofNat]
      omega
    have after : t.pc.toNat ≤ 0x10FE := by
      rw [exec_pc executed]
      exact pcAfter_le _ fetched entries
    have low := exec_sp_le executed bound
    rcases exec_next executed with ⟨k, -, rfl⟩ | ⟨noError, rfl⟩
    · exact ⟨after, low, entries⟩
    · exact ⟨after, low, completed_entriesBounded noError fetched entries⟩
  · exact ⟨pc, bound, entries⟩
  · exact ⟨pc, bound, entries⟩
  · unfold State.tick
    split <;> exact ⟨pc, bound, entries⟩
  · unfold State.pressKey
    split <;> exact ⟨pc, bound, entries⟩
  · exact ⟨by simp [State.restart, State.reset], Nat.zero_le 16, fun k live => absurd live (Nat.not_lt_zero k)⟩

/-! ## The registers outside the write set, and the flag (R11, R12) -/

theorem completed_reg_of_not_written {i : Instr} {k : Reg} (h : writesReg i k = false) (s : State) :
    (completed i s).reg k = s.reg k := by
  cases i with
  | ldImm | addImm | ldReg | orReg | andReg | xorReg | rnd | ldVxDT =>
    exact State.reg_setReg_ne s (beq_eq_false_iff_ne.mp h) _
  | addReg | sub | subn | shr | shl =>
    obtain ⟨notFlag, notDest⟩ := Bool.or_eq_false_iff.mp h
    exact (flagThen_reg s _ _ _ k).trans
      ((if_neg (beq_eq_false_iff_ne.mp notDest)).trans (if_neg (beq_eq_false_iff_ne.mp notFlag)))
  | drw x y n =>
    rw [← drawSprite_eq_completed]
    exact drawSprite_reg s x n (beq_eq_false_iff_ne.mp h)
  | ldVxMem x =>
    have above : ¬ k.toNat < x.toNat + 1 := fun low => of_decide_eq_false h (Nat.le_of_lt_succ low)
    exact (loadRegs_reg s x.isLt k).trans (if_neg above)
  | _ => rfl

theorem byte_zero_or_one {b : Byte} (h : b.toNat ≤ 1) : b = 0x00#8 ∨ b = 0x01#8 := by
  rcases Nat.le_one_iff_eq_zero_or_eq_one.mp h with zero | one
  · exact Or.inl (BitVec.eq_of_toNat_eq zero)
  · exact Or.inr (BitVec.eq_of_toNat_eq one)

/-- The flag of the five ALU writers stays where the destination is another register, and is a single bit. -/
theorem completed_flag_le_one {i : Instr} {x : Reg} (writes : flagWriter i = some (some x)) (other : x ≠ VF)
    (s : State) : ((completed i s).reg VF).toNat ≤ 1 := by
  cases i with
  | addReg x y =>
    cases writes
    rw [completed, flagThen_reg_flag s _ other, carryFlag_toNat]
    split <;> decide
  | sub x y | subn x y =>
    cases writes
    rw [completed, subtract_reg_flag s rfl other]
    split <;> decide
  | shr x y =>
    cases writes
    rw [completed, flagThen_reg_flag s _ other, lowBitFlag_toNat]
    omega
  | shl x y =>
    cases writes
    have bound := (s.reg x).isLt
    rw [completed, flagThen_reg_flag s _ other, highBitFlag_toNat]
    omega
  | _ => cases writes

/-- DRW is the one flag writer without a destination, and its flag is a truth value (R163). -/
theorem completed_flag_le_one_of_draw {i : Instr} (writes : flagWriter i = some none) (s : State) :
    ((completed i s).reg VF).toNat ≤ 1 := by
  cases i with
  | drw x y n =>
    rw [← drawSprite_eq_completed, drawSprite, finishDrawing_reg_flag, flagByte_toNat]
    split <;> decide
  | _ => cases writes

/-- An ALU instruction raises no error (R131). -/
theorem executeError_of_flagWriter {i : Instr} {x : Reg} (writes : flagWriter i = some (some x)) (s : State) :
    executeError i s = none := by
  cases i with
  | addReg | sub | subn | shr | shl => rfl
  | _ => cases writes

/-- Settles O19: a register outside the write set is kept, and each flag writer leaves a single bit or halts. -/
theorem flagWriters : Obligations.FlagWriters := by
  intro i s t h
  rcases exec_next h with ⟨k, error, rfl⟩ | ⟨-, rfl⟩
  · refine ⟨fun _ _ => rfl, fun x writes _ => ?_, fun _ => Or.inr (Or.inr ⟨rfl, rfl⟩)⟩
    cases (executeError_of_flagWriter writes s).symm.trans error
  · refine ⟨fun _ kept => completed_reg_of_not_written kept s,
      fun x writes other => byte_zero_or_one (completed_flag_le_one writes other s), fun writes => ?_⟩
    exact (byte_zero_or_one (completed_flag_le_one_of_draw writes s)).imp_right Or.inl

/-! ## Which instruction a changed field names -/

section
variable {i : Instr} {s : State}

theorem eq_of_completed_i_ne (changed : (completed i s).i ≠ s.i) :
    (∃ nnn, i = .ldI nnn) ∨ (∃ x, i = .addI x) ∨ ∃ x, i = .ldF x := by
  cases i with
  | ldI nnn => exact Or.inl ⟨nnn, rfl⟩
  | addI x => exact Or.inr (Or.inl ⟨x, rfl⟩)
  | ldF x => exact Or.inr (Or.inr ⟨x, rfl⟩)
  | _ => exact absurd rfl changed

theorem eq_of_completed_dt_ne (changed : (completed i s).dt ≠ s.dt) : ∃ x, i = .ldDTVx x := by
  cases i with
  | ldDTVx x => exact ⟨x, rfl⟩
  | _ => exact absurd rfl changed

theorem eq_of_completed_st_ne (changed : (completed i s).st ≠ s.st) : ∃ x, i = .ldSTVx x := by
  cases i with
  | ldSTVx x => exact ⟨x, rfl⟩
  | _ => exact absurd rfl changed

theorem eq_of_completed_sp_ne (changed : (completed i s).sp ≠ s.sp) : i = .ret ∨ ∃ nnn, i = .call nnn := by
  cases i with
  | ret => exact Or.inl rfl
  | call nnn => exact Or.inr ⟨nnn, rfl⟩
  | _ => exact absurd rfl changed

theorem eq_of_completed_stack_ne (changed : (completed i s).stack ≠ s.stack) : ∃ nnn, i = .call nnn := by
  cases i with
  | call nnn => exact ⟨nnn, rfl⟩
  | _ => exact absurd rfl changed

theorem eq_of_completed_display_ne (changed : (completed i s).fb ≠ s.fb ∨ (completed i s).events ≠ s.events) :
    i = .cls ∨ ∃ x y n, i = .drw x y n := by
  cases i with
  | cls => exact Or.inl rfl
  | drw x y n => exact Or.inr ⟨x, y, n, rfl⟩
  | _ => exact changed.elim (absurd rfl) (absurd rfl)

theorem eq_of_completed_mem_ne (changed : (completed i s).mem ≠ s.mem) : (∃ x, i = .ldB x) ∨ ∃ x, i = .ldMemVx x := by
  cases i with
  | ldB x => exact Or.inl ⟨x, rfl⟩
  | ldMemVx x => exact Or.inr ⟨x, rfl⟩
  | _ => exact absurd rfl changed

theorem eq_of_completed_answers_ne (changed : (completed i s).answers ≠ s.answers) :
    (∃ x nn, i = .rnd x nn) ∨ (∃ x, i = .skp x) ∨ ∃ x, i = .sknp x := by
  cases i with
  | rnd x nn => exact Or.inl ⟨x, nn, rfl⟩
  | skp x => exact Or.inr (Or.inl ⟨x, rfl⟩)
  | sknp x => exact Or.inr (Or.inr ⟨x, rfl⟩)
  | _ => exact absurd rfl changed

theorem completed_schedule : (completed i s).schedule = s.schedule := by
  cases i <;> rfl

end

/-- Settles O21: a halt changes none of the fields, and a completed rule those that its instruction is named for. -/
theorem onlyNamedInstructionsWrite : Obligations.OnlyNamedInstructionsWrite := by
  intro i s t h
  rcases exec_next h with ⟨k, -, rfl⟩ | ⟨-, rfl⟩
  · exact ⟨absurd rfl, absurd rfl, absurd rfl, absurd rfl, absurd rfl, absurd rfl, absurd rfl, absurd rfl, absurd rfl,
      rfl⟩
  · exact ⟨eq_of_completed_i_ne, eq_of_completed_dt_ne, eq_of_completed_st_ne, eq_of_completed_sp_ne,
      eq_of_completed_stack_ne, fun fb => eq_of_completed_display_ne (Or.inl fb),
      fun events => eq_of_completed_display_ne (Or.inr events), eq_of_completed_mem_ne, eq_of_completed_answers_ne,
      completed_schedule⟩

end Sys2Proof.Machine
end

section
/-! Proofs of the noninterference statements O15 and O20 (10_state.md R11; 20_memory.md R43, R45): a register that an
instruction does not read, and byte 0xFFF, which none can reach, are changed before an instruction as well as after. -/

namespace Sys2Proof.Machine

/-! ## A register that is not read (R11) -/

section
variable (s : State) (k : Reg) (b : Byte)

theorem drawRows_setReg (h : Byte) (t count : Nat) : drawRows (s.setReg k b) h t count = drawRows s h t count := by
  induction count with
  | zero => rfl
  | succ c ih => exact congrArg (drawRow s h t c) ih

theorem storeRegs_setReg {count : Nat} (room : count ≤ 16) (above : count ≤ k.toNat) :
    storeRegs (s.setReg k b) count = storeRegs s count := by
  induction count with
  | zero => rfl
  | succ c ih =>
    have other : regOfIndex c ≠ k := fun same => by
      rw [← same, regOfIndex_toNat (by omega)] at above
      omega
    rw [storeRegs, storeRegs, ih (by omega) (by omega), State.reg_setReg_ne s other]
    rfl

variable {k}

theorem setReg_reg_of_unread {x : Reg} (unread : (k == x) = false) : (s.setReg k b).reg x = s.reg x :=
  s.reg_setReg_ne (beq_eq_false_iff_ne.mp unread).symm b

theorem setReg_reg_of_unread_pair {x y : Reg} (unread : (k == x || k == y) = false) :
    (s.setReg k b).reg x = s.reg x ∧ (s.setReg k b).reg y = s.reg y :=
  have ⟨notX, notY⟩ := Bool.or_eq_false_iff.mp unread
  ⟨setReg_reg_of_unread s b notX, setReg_reg_of_unread s b notY⟩

theorem rowsDrawn_setReg {y : Reg} (same : (s.setReg k b).reg y = s.reg y) (n : Imm4) :
    rowsDrawn (s.setReg k b) y n = rowsDrawn s y n := by
  rw [rowsDrawn, rowsDrawn, same]

theorem executeError_setReg {i : Instr} (unread : readsReg i k = false) :
    executeError i (s.setReg k b) = executeError i s := by
  cases i with
  | ldF x => simp only [executeError, setReg_reg_of_unread s b unread]
  | drw x y n =>
    have sameRows := rowsDrawn_setReg s b (setReg_reg_of_unread_pair s b unread).2 n
    simp only [executeError, sameRows, State.setReg_i]
  | _ => rfl

/-- Outside the registers, a completed rule depends on the registers it reads only. -/
theorem completed_setReg_rest {i : Instr} (unread : readsReg i k = false) :
    completed i (s.setReg k b) = { completed i s with v := (completed i (s.setReg k b)).v } := by
  cases i with
  | seImm | sneImm | jpV0 | skp | sknp | ldDTVx | ldSTVx | addI | ldF | ldB =>
    simp only [completed, setReg_reg_of_unread s b unread]
    rfl
  | seReg | sneReg =>
    obtain ⟨sameX, sameY⟩ := setReg_reg_of_unread_pair s b unread
    simp only [completed, sameX, sameY]
    rfl
  | ldMemVx x =>
    have above := of_decide_eq_false unread
    rw [completed, storeRegs_setReg s k b x.isLt (by omega)]
    rfl
  | drw x y n =>
    obtain ⟨sameX, sameY⟩ := setReg_reg_of_unread_pair s b unread
    simp only [completed, drawSprite, finishDrawing_fb, finishDrawing_events, rowsDrawn_setReg s b sameY, sameX, sameY,
      drawRows_setReg]
    rfl
  | _ => rfl

/-- A register that the rule reads after its flag write (R13). -/
theorem reg_afterFlag_of_unread {x : Reg} (unread : (k == x) = false) (flag : Byte) :
    ((s.setReg k b).setReg VF flag).reg x = (s.setReg VF flag).reg x := by
  rw [State.reg_setReg _ x VF, State.reg_setReg s x VF, setReg_reg_of_unread s b unread]

/-- The two registers that a flag and then a result write hold nothing of the register file before. -/
theorem flagThen_reg_congr {s t : State} {flag : Byte} {x j : Reg} {result : State → Byte}
    (same : result (t.setReg VF flag) = result (s.setReg VF flag)) (written : j = VF ∨ j = x) :
    (flagThen t flag x result).reg j = (flagThen s flag x result).reg j := by
  rw [flagThen_reg, flagThen_reg, same]
  by_cases dest : j = x
  · rw [if_pos dest, if_pos dest]
  · have isFlag := written.resolve_right dest
    rw [if_neg dest, if_neg dest, if_pos isFlag, if_pos isFlag]

/-- A written register's new value depends on the registers read only. -/
theorem completed_setReg_reg_of_written {i : Instr} (unread : readsReg i k = false) {j : Reg}
    (written : writesReg i j = true) : (completed i (s.setReg k b)).reg j = (completed i s).reg j := by
  cases i with
  | ldImm x | rnd x | ldVxDT x =>
    cases eq_of_beq written
    exact (State.reg_setReg_same _ _ _).trans (State.reg_setReg_same _ _ _).symm
  | ldReg x | addImm x =>
    cases eq_of_beq written
    simp only [completed, State.reg_setReg_same, setReg_reg_of_unread s b unread]
  | orReg x | andReg x | xorReg x =>
    cases eq_of_beq written
    obtain ⟨sameX, sameY⟩ := setReg_reg_of_unread_pair s b unread
    simp only [completed, State.reg_setReg_same, sameX, sameY]
  | addReg x y | sub x y | subn x y =>
    obtain ⟨unreadX, unreadY⟩ := Bool.or_eq_false_iff.mp unread
    simp only [completed, subtract, setReg_reg_of_unread s b unreadX, setReg_reg_of_unread s b unreadY]
    refine flagThen_reg_congr ?_ (by simpa [writesReg, VF] using written)
    simp only [reg_afterFlag_of_unread s b unreadX, reg_afterFlag_of_unread s b unreadY]
  | shr x y | shl x y =>
    simp only [completed, setReg_reg_of_unread s b unread]
    refine flagThen_reg_congr ?_ (by simpa [writesReg, VF] using written)
    simp only [reg_afterFlag_of_unread s b unread]
  | drw x y n =>
    have flag : j = VF := eq_of_beq written
    obtain ⟨sameX, sameY⟩ := setReg_reg_of_unread_pair s b unread
    rw [← drawSprite_eq_completed, ← drawSprite_eq_completed, flag]
    simp only [drawSprite, finishDrawing_reg_flag, rowsDrawn_setReg s b sameY, sameX, sameY, drawRows_setReg]
  | ldVxMem x =>
    have loaded := of_decide_eq_true written
    exact (loadRegs_reg_of_le (s.setReg k b) loaded).trans (loadRegs_reg_of_le s loaded).symm
  | _ => cases written

end

theorem State.eq_of_reg {s t : State} (rest : s = { t with v := s.v }) (regs : ∀ j, s.reg j = t.reg j) : s = t := by
  rw [rest, State.v_eq_of_reg regs]

/-- A register neither read nor written is changed before the rule as well as after it. -/
theorem completed_setReg_of_kept {i : Instr} {k : Reg} (unread : readsReg i k = false) (kept : writesReg i k = false)
    (s : State) (b : Byte) : completed i (s.setReg k b) = (completed i s).setReg k b := by
  refine State.eq_of_reg (completed_setReg_rest s b unread) fun j => ?_
  by_cases same : j = k
  · rw [same, completed_reg_of_not_written kept, State.reg_setReg_same, State.reg_setReg_same]
  · rw [State.reg_setReg_ne _ same]
    cases written : writesReg i j with
    | true => exact completed_setReg_reg_of_written s b unread written
    | false =>
      rw [completed_reg_of_not_written written, completed_reg_of_not_written written, State.reg_setReg_ne _ same]

/-- A register written and not read makes no difference to the rule. -/
theorem completed_setReg_of_written {i : Instr} {k : Reg} (unread : readsReg i k = false)
    (written : writesReg i k = true) (s : State) (b : Byte) : completed i (s.setReg k b) = completed i s := by
  refine State.eq_of_reg (completed_setReg_rest s b unread) fun j => ?_
  cases writtenJ : writesReg i j with
  | true => exact completed_setReg_reg_of_written s b unread writtenJ
  | false =>
    have other : j ≠ k := fun same => by rw [same, written] at writtenJ; cases writtenJ
    rw [completed_reg_of_not_written writtenJ, completed_reg_of_not_written writtenJ, State.reg_setReg_ne _ other]

/-- Settles O20: the error table does not see an unread register, and the completed rule keeps it or overwrites it. -/
theorem registerReadsAndWrites : Obligations.RegisterReadsAndWrites := by
  intro i s k b unread
  have sameError := executeError_setReg s b unread
  refine ⟨fun kept => ?_, fun written _ t h live => ?_⟩
  · exact exec_commutes (f := fun t => t.setReg k b) rfl sameError (fun _ => rfl) fun _ =>
      completed_setReg_of_kept unread kept s b
  · rcases exec_next h with ⟨k, -, rfl⟩ | ⟨noError, rfl⟩
    · exact absurd rfl live
    · have notRet : i = .ret → (s.setReg k b).sp.toNat ≤ 16 := by
        rintro rfl
        cases written
      rw [exec_of_noError (sameError.trans noError) notRet, completed_setReg_of_written unread written]

/-! ## Byte 0xFFF (R45) -/

section
variable (s : State) (b : Byte)

theorem withByteFFF_read {a : Nat} (below : a < 0xFFF) : (s.withByteFFF b).mem.read a = s.mem.read a :=
  Memory.read_write_ne _ (Nat.ne_of_lt below) b

/-- Every sprite byte read is at most at 0xFFE (D1, D14). -/
theorem drawRows_withByteFFF (h : Byte) (t : Nat) {count : Nat} (inside : ∀ c < count, s.baseOffset c < 0xFFF) :
    drawRows (s.withByteFFF b) h t count = drawRows s h t count := by
  induction count with
  | zero => rfl
  | succ c ih =>
    have sameByte := withByteFFF_read s b (inside c (Nat.lt_succ_self c))
    have sameOffset : (s.withByteFFF b).baseOffset c = s.baseOffset c := rfl
    simp only [drawRows, drawRow, ih fun k below => inside k (Nat.lt_succ_of_lt below), sameOffset, sameByte]

theorem loadRegs_withByteFFF {count : Nat} (inside : ∀ c < count, s.baseOffset c < 0xFFF) :
    loadRegs (s.withByteFFF b) count = (loadRegs s count).withByteFFF b := by
  induction count with
  | zero => rfl
  | succ c ih =>
    have sameByte := withByteFFF_read s b (inside c (Nat.lt_succ_self c))
    have sameOffset : (s.withByteFFF b).baseOffset c = s.baseOffset c := rfl
    rw [loadRegs, loadRegs, ih fun k below => inside k (Nat.lt_succ_of_lt below), sameOffset, sameByte]
    rfl

variable {s}

/-- A byte stored below 0xFFF and the byte at 0xFFF are different entries of the canonical memory. -/
theorem write_write_FFF {m : Memory} (wf : m.wf) {a : Nat} (below : a < 0xFFF) (value : Byte) :
    (m.write 0xFFF b).write a value = (m.write a value).write 0xFFF b :=
  Memory.write_comm wf (by decide) (Nat.lt_trans below (by decide)) (Nat.ne_of_gt below) _ _

theorem storeRegs_withByteFFF (wf : s.mem.wf) {count : Nat} (inside : s.i.toNat + count ≤ 0xFFF) :
    storeRegs (s.withByteFFF b) count = (storeRegs s count).write 0xFFF b := by
  induction count with
  | zero => rfl
  | succ c ih =>
    have stored := storeRegs_wf wf (count := c) (by simp only [memSize]; omega)
    have below : s.baseOffset c < 0xFFF := by rw [State.baseOffset_eq]; omega
    rw [storeRegs, storeRegs, ih (by omega)]
    exact write_write_FFF b stored below _

theorem completed_withByteFFF {i : Instr} (noError : executeError i s = none) (wf : s.mem.wf) :
    completed i (s.withByteFFF b) = (completed i s).withByteFFF b := by
  cases i with
  | drw x y n =>
    have inside := not_raised_when noError
    have sameRows : rowsDrawn (s.withByteFFF b) y n = rowsDrawn s y n := rfl
    have sameReg : ∀ k, (s.withByteFFF b).reg k = s.reg k := fun _ => rfl
    have sameDrawing := drawRows_withByteFFF s b (s.reg x) (s.reg y).toNat (count := rowsDrawn s y n)
      fun c below => by rw [State.baseOffset_eq]; omega
    rw [← drawSprite_eq_completed, ← drawSprite_eq_completed, drawSprite, sameRows, sameReg, sameReg, sameDrawing,
      drawSprite, finishDrawing, finishDrawing]
    split <;> rfl
  | ldB x =>
    have inside := not_raised_when noError
    have below : ∀ k ≤ 2, s.baseOffset k < 0xFFF := fun k le => by rw [State.baseOffset_eq]; omega
    have wf0 := Memory.wf_write wf (Nat.lt_trans (below 0 (by decide)) (by decide)) (hundreds (s.reg x))
    have wf1 := Memory.wf_write wf0 (Nat.lt_trans (below 1 (by decide)) (by decide)) (tens (s.reg x))
    have first := write_write_FFF b wf (below 0 (by decide)) (hundreds (s.reg x))
    have second := write_write_FFF b wf0 (below 1 (by decide)) (tens (s.reg x))
    have third := write_write_FFF b wf1 (below 2 (by decide)) (ones (s.reg x))
    change s.setMem ((((s.mem.write 0xFFF b).write (s.baseOffset 0) (hundreds (s.reg x))).write
      (s.baseOffset 1) (tens (s.reg x))).write (s.baseOffset 2) (ones (s.reg x))) = _
    rw [first, second, third]
    rfl
  | ldMemVx x =>
    have inside := not_raised_when noError
    rw [completed, storeRegs_withByteFFF b wf (by omega)]
    rfl
  | ldVxMem x =>
    have inside := not_raised_when noError
    have below : ∀ c < x.toNat + 1, s.baseOffset c < 0xFFF := fun c le => by rw [State.baseOffset_eq]; omega
    rw [completed, loadRegs_withByteFFF s b below]
    rfl
  | _ => rfl

theorem exec_withByteFFF (i : Instr) (wf : s.mem.wf) :
    exec i (s.withByteFFF b) = onNext (fun t => t.withByteFFF b) (exec i s) := by
  have sameError : executeError i (s.withByteFFF b) = executeError i s := by cases i <;> rfl
  exact exec_commutes (f := fun t => t.withByteFFF b) rfl sameError (fun _ => rfl) fun noError =>
    completed_withByteFFF b noError wf

variable (s)

/-- The highest byte fetched is at 0xFFE (R44). -/
theorem fetchWord_withByteFFF (inside : s.pc.toNat + 2 ≤ 0xFFF) : (s.withByteFFF b).fetchWord = s.fetchWord := by
  have high := withByteFFF_read s b (a := s.pc.toNat) (by omega)
  have low := withByteFFF_read s b (a := s.pc.toNat + 1) (by omega)
  have samePc : (s.withByteFFF b).pc = s.pc := rfl
  rw [State.fetchWord, samePc, high, low]
  rfl

theorem tick_withByteFFF : (s.withByteFFF b).tick = s.tick.withByteFFF b := by
  by_cases halted : s.phase = .halted
  · rw [State.tick_of_halted halted, State.tick_of_halted (s := s.withByteFFF b) halted]
  · rw [State.tick_of_not_halted halted, State.tick_of_not_halted (s := s.withByteFFF b) halted]
    rfl

theorem pressKey_withByteFFF (key : BitVec 4) : (s.withByteFFF b).pressKey key = (s.pressKey key).withByteFFF b := by
  by_cases waiting : ∃ x, s.phase = .waitKey x
  · obtain ⟨x, waiting⟩ := waiting
    rw [State.pressKey_of_waitKey waiting, State.pressKey_of_waitKey (s := s.withByteFFF b) waiting]
    rfl
  · have other := not_exists.mp waiting
    rw [State.pressKey_of_not_waitKey other, State.pressKey_of_not_waitKey (s := s.withByteFFF b) other]

end

/-- Settles O15: each transition but the reset commutes with the write of the byte; a fetch and an access in bounds end
at 0xFFE. -/
theorem byteFFFIsUnobservable : Obligations.ByteFFFIsUnobservable := by
  intro s b consistent noReset
  obtain ⟨-, -, wf⟩ := consistent
  rcases schedule_cases s.schedule with offered | ⟨rest, e⟩ | ⟨key, rest, e⟩ | ⟨image, rest, e⟩
  · by_cases run : s.phase = .run
    · cases fetch : s.canFetch with
      | true =>
        have word := fetchWord_withByteFFF s b (s.canFetch_iff.mp fetch)
        calc step (s.withByteFFF b)
            = exec (decodeWord s.fetchWord) (s.started.withByteFFF b) := by
              rw [step, transition_of_running (s := s.withByteFFF b) ⟨run, offered⟩ fetch, word]
              rfl
          _ = onNext (fun t => t.withByteFFF b) (exec (decodeWord s.fetchWord) s.started) :=
              exec_withByteFFF (s := s.started) b _ wf
          _ = onNext (fun t => t.withByteFFF b) (step s) := by rw [step, transition_of_running ⟨run, offered⟩ fetch]
      | false =>
        rw [step, step, transition_of_fetchFault ⟨run, offered⟩ fetch,
          transition_of_fetchFault (s := s.withByteFFF b) ⟨run, offered⟩ fetch]
        rfl
    · rw [step, step, transition_of_idle offered run, transition_of_idle (s := s.withByteFFF b) offered run]
      rfl
  · rw [step, step, transition_of_tick e, transition_of_tick (s := s.withByteFFF b) e]
    exact congrArg Host.Outcome.next (tick_withByteFFF (s.setSchedule rest) b)
  · rw [step, step, transition_of_keyPress e, transition_of_keyPress (s := s.withByteFFF b) e]
    exact congrArg Host.Outcome.next (pressKey_withByteFFF (s.setSchedule rest) b key)
  · exact absurd (by rw [e, List.head?_cons]) (noReset image)

end Sys2Proof.Machine
end

section
/-! Proofs of the remaining statements on one instruction: O27 (41_control_transfer.md R105, R106), O29 (42_alu.md R122 to
R125), O35 and O39 (43_index_memory.md R141; 20_memory.md R52), O41 and O42 (44_display.md R161 to R164), O45 and O48
(45_input_random_timers.md R173, R174, R176). -/

namespace Sys2Proof.Machine

/-! ## Registers -/

/-- Settles O27: both rules are one skip, on equality of the two registers or on its negation. -/
theorem skipsOnRegister : Obligations.SkipsOnRegister := by
  intro x y s
  exact ⟨⟨_, rfl, keeps_skipIf s rfl _, s.skipIf_beq_pc_toNat (s.reg x) (s.reg y)⟩,
    ⟨_, rfl, keeps_skipIf s rfl _, s.skipIf_bne_pc_toNat (s.reg x) (s.reg y)⟩⟩

/-- Settles O29: the four rules are one write of the destination, and three of the values are read bit by bit. -/
theorem copyAndBitwiseOperations : Obligations.CopyAndBitwiseOperations := by
  intro x y s
  have frame : ∀ b, Keeps { regs := [x] } s (s.setReg x b) := keeps_setReg s (List.mem_singleton_self x)
  refine ⟨⟨_, rfl, s.reg_setReg_same x _, frame _⟩, ⟨_, rfl, frame _, fun b => ?_⟩, ⟨_, rfl, frame _, fun b => ?_⟩,
    ⟨_, rfl, frame _, fun b => ?_⟩⟩
  · rw [State.reg_setReg_same, BitVec.getLsbD_or]
  · rw [State.reg_setReg_same, BitVec.getLsbD_and]
  · rw [State.reg_setReg_same, BitVec.getLsbD_xor]

/-- Settles O48: the rule is one write of the destination, and the encoder's last field is the sub-code. -/
theorem readsDelayTimer : Obligations.ReadsDelayTimer :=
  ⟨fun x s => ⟨_, rfl, s.reg_setReg_same x _, keeps_setReg s (List.mem_singleton_self x) _⟩,
    fun x => nnField_wordXK 0xF#4 x 0x06#8⟩

/-! ## The address register and memory -/

/-- Settles O35: the rule is one write of `I`, and the sum of bit vectors is the sum of the numbers modulo 65536. -/
theorem addIndexWraps : Obligations.AddIndexWraps := by
  intro x s
  have sum : (s.i + wide (s.reg x)).toNat = (s.i.toNat + (s.reg x).toNat) % 65536 := by
    rw [BitVec.toNat_add, wide_toNat]
  exact ⟨_, rfl, sum, keeps_setI s rfl _⟩

/-- Settles O39: the block store changes memory only, and its first two bytes are those at `PC`. -/
theorem storesReachTheNextFetch : Obligations.StoresReachTheNextFetch := by
  intro x s running two atPc fetch inside
  refine ⟨_, exec_ldMemVx_store inside, ?_⟩
  have high : (storeRegs s (x.toNat + 1)).read s.pc.toNat = s.reg 0x0#4 := by
    rw [← atPc]
    exact storeRegs_read_baseOffset s (k := 0x0#4) (Nat.succ_pos _)
  have low : (storeRegs s (x.toNat + 1)).read (s.pc.toNat + 1) = s.reg 0x1#4 := by
    rw [← atPc]
    exact storeRegs_read_baseOffset s (k := 0x1#4) (Nat.lt_succ_of_le two)
  have word : (s.setMem (storeRegs s (x.toNat + 1))).fetchWord = wordOfBytes (s.reg 0x0#4) (s.reg 0x1#4) :=
    congrArg₂ wordOfBytes high low
  rw [← word]
  exact transition_of_running (s := s.setMem _) running ((State.canFetch_iff _).mpr fetch)

/-! ## The key skips -/

/-- Settles O45: both rules are one skip on the answer, or on its negation, and one counted answer. -/
theorem keySkips : Obligations.KeySkips := by
  intro x s
  have frame : ∀ c, Keeps { pc := true, answers := true } s (s.skipIf c).countAnswer := fun c =>
    (keeps_skipIf s rfl c).trans (keeps_countAnswer _ rfl)
  refine ⟨⟨_, rfl, rfl, frame _, fun down => ?_, fun up => ?_⟩, ⟨_, rfl, rfl, frame _, fun up => ?_, fun down => ?_⟩⟩
  · rw [State.countAnswer_pc, State.skipIf_pc_toNat, down]
    rfl
  · rw [State.countAnswer_pc, State.skipIf_pc, up]
    rfl
  · rw [State.countAnswer_pc, State.skipIf_pc_toNat, up]
    rfl
  · rw [State.countAnswer_pc, State.skipIf_pc, down]
    rfl

/-! ## Placing and drawing -/

/-- Settles O42: a left shift within 64 bits, and no bit at all for a shift of 64 or more. -/
theorem placePutsBits : Obligations.PlacePutsBits := by
  intro sprite h b onRow
  unfold place
  split
  · next shifted =>
    have inside : b - h.toNat < 64 := by omega
    have reached : (!decide (b < h.toNat)) = decide (h.toNat ≤ b) := by rw [← decide_not, decide_eq_decide, Nat.not_lt]
    rw [BitVec.getLsbD_shiftLeft, BitVec.getLsbD_setWidth, decide_eq_true onRow, decide_eq_true inside, reached,
      Bool.true_and, Bool.true_and]
  · next lost =>
    have beyond : ¬ h.toNat ≤ b := by omega
    rw [BitVec.getLsbD_zero, decide_eq_false beyond, Bool.false_and]

/-- Without a collision on any drawn row the flag is 0 (R163). -/
theorem drawSprite_flag_of_clear (s : State) (x y : Reg) (n : Imm4)
    (clear : ∀ k : Fin 32, ((s.reg y).toNat ≤ k.val ∧ k.val < (s.reg y).toNat + rowsDrawn s y n) →
      s.fb[k] &&& spriteRow s (s.reg x) (s.reg y).toNat k.val = 0#64) :
    (drawSprite s x y n).reg VF = 0x00#8 := by
  have notCollided : (drawRows s (s.reg x) (s.reg y).toNat (rowsDrawn s y n)).collided = false := by
    rw [← Bool.not_eq_true, (drawRows_drawn s _ _ _ (rowsDrawn_inside s y n)).collided]
    rintro ⟨k, onScreen, drawn, collision⟩
    exact collision (clear ⟨k, onScreen⟩ drawn)
  rw [drawSprite, finishDrawing_reg_flag, notCollided]
  rfl

theorem drawSprite_events (s : State) (x y : Reg) (n : Imm4) :
    (drawSprite s x y n).events =
      if rowsDrawn s y n > 0
      then s.events ++ [.regionUpdated (drawRows s (s.reg x) (s.reg y).toNat (rowsDrawn s y n)).rows]
      else s.events := finishDrawing_events _ _ _

/-- The rows of the event are the drawn ones in order, with the values that the framebuffer then holds (R164). -/
theorem drawRows_rows_eq_drawSprite_fb (s : State) (x y : Reg) (n : Imm4) :
    (drawRows s (s.reg x) (s.reg y).toNat (rowsDrawn s y n)).rows.map (fun u => (u.1.val, some u.2)) =
      (List.range (rowsDrawn s y n)).map fun r =>
        ((s.reg y).toNat + r, (drawSprite s x y n).fb[(s.reg y).toNat + r]?) := by
  rw [drawSprite, finishDrawing_fb]
  exact (drawRows_drawn s _ _ _ (rowsDrawn_inside s y n)).rows

/-- Settles O41: what the loop over the drawn rows leaves, row by row, in the flag and in the event; the bound is checked
before it, for the drawn rows only. -/
theorem drawXorsRows : Obligations.DrawXorsRows := by
  intro x y n s
  refine ⟨fun inBounds => ⟨_, exec_drw_eq_drawSprite x inBounds, fun k => drawSprite_row s x y n k.isLt,
    fun collision => ?_, drawSprite_flag_of_clear s x y n, fun nothing => ?_, fun drawn => ?_, keeps_drawSprite s x n⟩,
    fun drawn outside => ⟨_, exec_drw_fault x drawn outside, rfl, rfl, keeps_haltedWith s rfl _⟩⟩
  · obtain ⟨k, drawn⟩ := collision
    exact drawSprite_flag_of_collision s x y n ⟨k.val, k.isLt, drawn⟩
  · rw [drawSprite_events, if_neg (by omega)]
  · exact ⟨_, by rw [drawSprite_events, if_pos drawn], drawRows_rows_eq_drawSprite_fb s x y n⟩

end Sys2Proof.Machine
end
